-- ==== Sys2Proof/Word.lean ====
section
/-! DEFINITION. The widths of the machine (`00_scope.md` R4) and the one narrowing of integers to words (section 5.1). -/

namespace Sys2Proof

/-- A byte of memory or of an instruction: 8 bits (R4). -/
abbrev Byte := BitVec 8

/-- A register word: 32 bits (R4, R10). -/
abbrev Word := BitVec 32

/-- The memory word that load, store, push and pop move: 3 bytes, 24 bits (R4, R48). -/
abbrev Word24 := BitVec 24

/-- A valid register index, 0 to 17 (R4, R10). An index byte of 18 or more is no `RegIdx`: the decoder rejects it (R78). -/
abbrev RegIdx := Fin 18

/-- `to32(n)` of `00_scope.md` section 5.1: the word congruent to the integer `n` modulo 2^32. -/
def to32 (n : Int) : Word := BitVec.ofInt 32 n

end Sys2Proof
end

