-- ==== Sys2Proof/Config.lean ====
section
/-! DEFINITION. The five parameters of the hardware, R5 to R9 of `00_scope.md`: what an implementation or the external
enumeration fixes, as plain data, with the reference instantiation. There is no free value: the spec leaves none (R179). -/

namespace Sys2Proof

/-- The 24 mnemonics, in the order R1 and R6 list them. -/
inductive Mnemonic
  | add | and | cmp | div | jeq | jge | jgt | jle | jlt | jmp | jnq | li
  | load | mul | mv | not | or | pop | push | shl | shr | shra | store | sub
  deriving DecidableEq, Repr

/-- All mnemonics, in R6's order. -/
def Mnemonic.all : List Mnemonic :=
  [.add, .and, .cmp, .div, .jeq, .jge, .jgt, .jle, .jlt, .jmp, .jnq, .li,
   .load, .mul, .mv, .not, .or, .pop, .push, .shl, .shr, .shra, .store, .sub]

/-- The place of a mnemonic in R6's order. -/
def Mnemonic.index : Mnemonic → Fin 24
  | .add => 0 | .and => 1 | .cmp => 2 | .div => 3 | .jeq => 4 | .jge => 5
  | .jgt => 6 | .jle => 7 | .jlt => 8 | .jmp => 9 | .jnq => 10 | .li => 11
  | .load => 12 | .mul => 13 | .mv => 14 | .not => 15 | .or => 16 | .pop => 17
  | .push => 18 | .shl => 19 | .shr => 20 | .shra => 21 | .store => 22 | .sub => 23

/-- The seven flag names, in VICA's listing order (R8, R21). -/
inductive Flag
  | overflow | less | equal | ciae | cibe | eiae | eibe
  deriving DecidableEq, Repr

/-- All flags, in R8's order. -/
def Flag.all : List Flag := [.overflow, .less, .equal, .ciae, .cibe, .eiae, .eibe]

/-- OPCODE_MAP (R6): the opcode byte of each mnemonic, in the order of `Mnemonic.all`. -/
structure OpcodeMap where
  codes : Vector Byte 24
  deriving DecidableEq, Repr

/-- The code OPCODE_MAP gives a mnemonic (R6). -/
def OpcodeMap.code (o : OpcodeMap) (m : Mnemonic) : Byte := o.codes[m.index]

/-- REG_MAP (R7): the indices of pp, sp and fl, and the names of the other 15 indices, the general registers, in index
order. -/
structure RegMap where
  pp : RegIdx
  sp : RegIdx
  fl : RegIdx
  gprNames : Vector String 15
  deriving DecidableEq, Repr

/-- FLAG_BIT (R8): the bit of fl that holds each flag. -/
structure FlagMap where
  overflow : Fin 32
  less : Fin 32
  equal : Fin 32
  ciae : Fin 32
  cibe : Fin 32
  eiae : Fin 32
  eibe : Fin 32
  deriving DecidableEq, Repr

/-- The bit FLAG_BIT gives a flag (R8). -/
def FlagMap.bit (b : FlagMap) : Flag → Fin 32
  | .overflow => b.overflow
  | .less => b.less
  | .equal => b.equal
  | .ciae => b.ciae
  | .cibe => b.cibe
  | .eiae => b.eiae
  | .eibe => b.eibe

/-- The parameters of one machine, fixed at construction (R5 to R9; R9: "No other parameter exists"). -/
structure Config where
  /-- MEMSIZE, the number of bytes of memory (R5). -/
  memSize : Nat
  /-- OPCODE_MAP (R6). -/
  opcodeMap : OpcodeMap
  /-- REG_MAP (R7). -/
  regMap : RegMap
  /-- FLAG_BIT (R8). -/
  flagMap : FlagMap
  /-- STORE_ADVANCES_PP (R9): false is the quirk, true the corrected store. -/
  storeAdvancesPp : Bool
  deriving DecidableEq, Repr

/-- What R5 to R8 ask of the parameters: MEMSIZE in 4..2^32, OPCODE_MAP and FLAG_BIT injective, and PP, SP, FL distinct.
Outside it "the hardware is not defined (a model refuses to construct it)" (R5): see `Sys2Proof.Machine.construct`. -/
abbrev Config.Valid (c : Config) : Prop :=
  (4 ≤ c.memSize ∧ c.memSize ≤ 2 ^ 32) ∧
  (Mnemonic.all.map c.opcodeMap.code).Nodup ∧
  [c.regMap.pp, c.regMap.sp, c.regMap.fl].Nodup ∧
  (Flag.all.map c.flagMap.bit).Nodup

/-- The reference OPCODE_MAP (R6): 0x00 to 0x17 in the order of the list. The spec's own choice (D3), not VICA's. -/
def OpcodeMap.reference : OpcodeMap where
  codes := #v[0x00, 0x01, 0x02, 0x03, 0x04, 0x05, 0x06, 0x07, 0x08, 0x09, 0x0A, 0x0B,
    0x0C, 0x0D, 0x0E, 0x0F, 0x10, 0x11, 0x12, 0x13, 0x14, 0x15, 0x16, 0x17]

/-- The reference REG_MAP (R7): r0..r14 at 0..14, pp = 15, sp = 16, fl = 17. The spec's own choice (D4), the
names included. -/
def RegMap.reference : RegMap where
  pp := 15
  sp := 16
  fl := 17
  gprNames := #v["r0", "r1", "r2", "r3", "r4", "r5", "r6", "r7", "r8", "r9", "r10", "r11", "r12", "r13", "r14"]

/-- The reference FLAG_BIT (R8): bits 0 to 6 in the listing order. The spec's own choice (D5). -/
def FlagMap.reference : FlagMap where
  overflow := 0
  less := 1
  equal := 2
  ciae := 3
  cibe := 4
  eiae := 5
  eibe := 6

/-- The reference instantiation (R6 to R9), with the MEMSIZE of the spec's worked examples.
DESIGN CHOICE (log entry 3): R5 gives MEMSIZE no reference value; 256 is what "all worked examples use". -/
def Config.reference : Config where
  memSize := 256
  opcodeMap := OpcodeMap.reference
  regMap := RegMap.reference
  flagMap := FlagMap.reference
  storeAdvancesPp := false

end Sys2Proof
end

