-- ==== Sys2Proof/Syntax.lean ====
section
/-! DEFINITION. The instructions: one constructor per row of spec/opcode_table.json, its operands in the order of the
encoding's bytes (`30_encoding.md` R76, R84). -/

namespace Sys2Proof

/-- An instruction after decoding. `rd`, `ra`, `rb` are register indices (R73), `amount` is the whole of byte 3 of a shift
(R74: its high three bits are ignored when it runs), `imm` the 32-bit immediate (R75). -/
inductive Instr
  /-- `add rd, ra, rb` (R100) -/
  | add (rd ra rb : RegIdx)
  /-- `and rd, ra, rb` (R102) -/
  | and (rd ra rb : RegIdx)
  /-- `cmp rd, ra` (R120) -/
  | cmp (rd ra : RegIdx)
  /-- `div rd, ra, rb` (R122) -/
  | div (rd ra rb : RegIdx)
  /-- `jeq rd` (R151) -/
  | jeq (rd : RegIdx)
  /-- `jge rd` (R154) -/
  | jge (rd : RegIdx)
  /-- `jgt rd` (R155) -/
  | jgt (rd : RegIdx)
  /-- `jle rd` (R156) -/
  | jle (rd : RegIdx)
  /-- `jlt rd` (R153) -/
  | jlt (rd : RegIdx)
  /-- `jmp rd` (R150) -/
  | jmp (rd : RegIdx)
  /-- `jnq rd` (R152) -/
  | jnq (rd : RegIdx)
  /-- `li rd, imm` (R130) -/
  | li (rd : RegIdx) (imm : Word)
  /-- `load rd, ra` (R131) -/
  | load (rd ra : RegIdx)
  /-- `mul rd, ra, rb` (R121) -/
  | mul (rd ra rb : RegIdx)
  /-- `mv rd, ra` (R105) -/
  | mv (rd ra : RegIdx)
  /-- `not rd, ra` (R104) -/
  | not (rd ra : RegIdx)
  /-- `or rd, ra, rb` (R103) -/
  | or (rd ra rb : RegIdx)
  /-- `pop rd` (R141) -/
  | pop (rd : RegIdx)
  /-- `push rd` (R140) -/
  | push (rd : RegIdx)
  /-- `shl rd, ra, amount` (R106) -/
  | shl (rd ra : RegIdx) (amount : Byte)
  /-- `shr rd, ra, amount` (R107) -/
  | shr (rd ra : RegIdx) (amount : Byte)
  /-- `shra rd, ra, amount` (R108) -/
  | shra (rd ra : RegIdx) (amount : Byte)
  /-- `store rd, ra` (R132) -/
  | store (rd ra : RegIdx)
  /-- `sub rd, ra, rb` (R101) -/
  | sub (rd ra rb : RegIdx)
  deriving DecidableEq, Repr

/-- The mnemonic of an instruction. -/
def Instr.mnemonic : Instr → Mnemonic
  | .add _ _ _ => .add
  | .and _ _ _ => .and
  | .cmp _ _ => .cmp
  | .div _ _ _ => .div
  | .jeq _ => .jeq
  | .jge _ => .jge
  | .jgt _ => .jgt
  | .jle _ => .jle
  | .jlt _ => .jlt
  | .jmp _ => .jmp
  | .jnq _ => .jnq
  | .li _ _ => .li
  | .load _ _ => .load
  | .mul _ _ _ => .mul
  | .mv _ _ => .mv
  | .not _ _ => .not
  | .or _ _ _ => .or
  | .pop _ => .pop
  | .push _ => .push
  | .shl _ _ _ => .shl
  | .shr _ _ _ => .shr
  | .shra _ _ _ => .shra
  | .store _ _ => .store
  | .sub _ _ _ => .sub

end Sys2Proof
end

