-- ==== Sys2Proof/WellFormed.lean ====
section
/-! DEFINITION. Well-formed instructions: every index the instruction uses is a register (`30_encoding.md` R78). The type
`RegIdx` already bounds the fields; what is left to check is div's second destination, `rd + 1`. -/

namespace Sys2Proof

/-- The register indices an instruction uses, by the table of R78: div also uses `rd + 1`. -/
def Instr.indices : Instr → List Nat
  | .add rd ra rb => [rd, ra, rb]
  | .and rd ra rb => [rd, ra, rb]
  | .cmp rd ra => [rd, ra]
  | .div rd ra rb => [rd, rd + 1, ra, rb]
  | .jeq rd => [rd]
  | .jge rd => [rd]
  | .jgt rd => [rd]
  | .jle rd => [rd]
  | .jlt rd => [rd]
  | .jmp rd => [rd]
  | .jnq rd => [rd]
  | .li rd _ => [rd]
  | .load rd ra => [rd, ra]
  | .mul rd ra rb => [rd, ra, rb]
  | .mv rd ra => [rd, ra]
  | .not rd ra => [rd, ra]
  | .or rd ra rb => [rd, ra, rb]
  | .pop rd => [rd]
  | .push rd => [rd]
  | .shl rd ra _ => [rd, ra]
  | .shr rd ra _ => [rd, ra]
  | .shra rd ra _ => [rd, ra]
  | .store rd ra => [rd, ra]
  | .sub rd ra rb => [rd, ra, rb]

/-- Every index used is below 18 (R78); so for div, rd is at most 16. -/
def Instr.wellFormed (i : Instr) : Bool := i.indices.all (fun k => decide (k < 18))

end Sys2Proof
end

