-- ==== Sys2Proof/Decode.lean ====
section
/-! DEFINITION. Decoding and encoding (`30_encoding.md`): the fetch window's fields, the opcode lookup, the register index
checks, the encoder written from the same format table, and the words of the opcode table. -/

namespace Sys2Proof

/-! ### The fetch window and its fields -/

/-- The six bytes B[0..5] the decoder reads at every step, whatever the opcode (R70). -/
structure Window where
  b0 : Byte
  b1 : Byte
  b2 : Byte
  b3 : Byte
  b4 : Byte
  b5 : Byte
  deriving DecidableEq, Repr

/-- The first six bytes of a list, if there are six. -/
def windowOf : List Byte → Option Window
  | b0 :: b1 :: b2 :: b3 :: b4 :: b5 :: _ => some ⟨b0, b1, b2, b3, b4, b5⟩
  | _ => none

/-- `opcode = B[0]` (R72). -/
def opcodeOf (w : Window) : Byte := w.b0

/-- `rd = B[1]` (R73), not yet checked. -/
def rdOf (w : Window) : Byte := w.b1

/-- `ra = B[2]` (R73), not yet checked. -/
def raOf (w : Window) : Byte := w.b2

/-- `rb = B[3]` (R73), not yet checked; for the shifts the raw amount byte. -/
def rbOf (w : Window) : Byte := w.b3

/-- `imm32 = B[2] ++ B[3] ++ B[4] ++ B[5]`, the byte at offset 2 most significant (R75). -/
def imm32Of (w : Window) : Word := w.b2 ++ w.b3 ++ w.b4 ++ w.b5

/-- `shamt = B[3][4:0]`: the low five bits of the amount byte, a distance 0..31 (R74). -/
def shamtOf (amount : Byte) : Nat := (amount.extractLsb' 0 5).toNat

/-! ### Formats -/

/-- The five formats of R76. -/
inductive Format
  | f2 | f3 | f4r | f4s | f6i
  deriving DecidableEq, Repr

/-- The length in bytes of each format (R76, R81). -/
def formatLength : Format → Nat
  | .f2 => 2
  | .f3 => 3
  | .f4r => 4
  | .f4s => 4
  | .f6i => 6

/-- The format of each mnemonic (R76, R77). -/
def formatOf : Mnemonic → Format
  | .add => .f4r
  | .and => .f4r
  | .cmp => .f3
  | .div => .f4r
  | .jeq => .f2
  | .jge => .f2
  | .jgt => .f2
  | .jle => .f2
  | .jlt => .f2
  | .jmp => .f2
  | .jnq => .f2
  | .li => .f6i
  | .load => .f3
  | .mul => .f4r
  | .mv => .f3
  | .not => .f3
  | .or => .f4r
  | .pop => .f2
  | .push => .f2
  | .shl => .f4s
  | .shr => .f4s
  | .shra => .f4s
  | .store => .f3
  | .sub => .f4r

/-- The length of an instruction in bytes, decided by its opcode alone (R81). -/
def instrLength (i : Instr) : Nat := formatLength (formatOf i.mnemonic)

/-! ### Decoding -/

/-- Why bytes are no instruction. `truncated` is only for a list of fewer than six bytes: a step never meets it, since its
window has six (R70). The details carried are not architectural (R198). -/
inductive DecodeError
  /-- fewer than six bytes were given -/
  | truncated
  /-- B[0] is the code of no mnemonic (R79) -/
  | illegalOpcode (b : Byte)
  /-- a used index is 18 or more (R78) -/
  | invalidRegister (index : Nat)
  deriving DecidableEq, Repr

/-- The mnemonic whose code under OPCODE_MAP is the byte, if there is one (R77, R79; step phase SELECT of R175). -/
def selectMnemonic (o : OpcodeMap) (b : Byte) : Option Mnemonic :=
  Mnemonic.all.find? (fun m => o.code m == b)

/-- `check_reg(i)`: an index of 18 or more is rejected (R15, R78). -/
def checkReg (i : Nat) : Except DecodeError RegIdx :=
  if h : i < 18 then .ok ⟨i, h⟩ else .error (.invalidRegister i)

/-- Format F2: rd is checked (R76, R78). -/
def decodeF2 (mk : RegIdx → Instr) (w : Window) : Except DecodeError Instr :=
  match checkReg (rdOf w).toNat with
  | .error e => .error e
  | .ok rd => .ok (mk rd)

/-- Format F3: rd and ra are checked (R76, R78). -/
def decodeF3 (mk : RegIdx → RegIdx → Instr) (w : Window) : Except DecodeError Instr :=
  match checkReg (rdOf w).toNat, checkReg (raOf w).toNat with
  | .error e, _ => .error e
  | .ok _, .error e => .error e
  | .ok rd, .ok ra => .ok (mk rd ra)

/-- Format F4R: rd, ra and rb are checked (R76, R78). -/
def decodeF4R (mk : RegIdx → RegIdx → RegIdx → Instr) (w : Window) : Except DecodeError Instr :=
  match checkReg (rdOf w).toNat, checkReg (raOf w).toNat, checkReg (rbOf w).toNat with
  | .error e, _, _ => .error e
  | .ok _, .error e, _ => .error e
  | .ok _, .ok _, .error e => .error e
  | .ok rd, .ok ra, .ok rb => .ok (mk rd ra rb)

/-- Format F4R for div, whose second destination `rd + 1` is checked too (R78). -/
def decodeDiv (w : Window) : Except DecodeError Instr :=
  match checkReg ((rdOf w).toNat + 1) with
  | .error e => .error e
  | .ok _ => decodeF4R .div w

/-- Format F4S: rd and ra are checked, byte 3 is an amount and never checked (R74, R76, R78). -/
def decodeF4S (mk : RegIdx → RegIdx → Byte → Instr) (w : Window) : Except DecodeError Instr :=
  match checkReg (rdOf w).toNat, checkReg (raOf w).toNat with
  | .error e, _ => .error e
  | .ok _, .error e => .error e
  | .ok rd, .ok ra => .ok (mk rd ra (rbOf w))

/-- Format F6I: rd is checked, bytes 2 to 5 are the immediate and never checked (R75, R76, R78, R82). -/
def decodeF6I (mk : RegIdx → Word → Instr) (w : Window) : Except DecodeError Instr :=
  match checkReg (rdOf w).toNat with
  | .error e => .error e
  | .ok rd => .ok (mk rd (imm32Of w))

/-- The fields of a window as the operands of the selected mnemonic, with phase CHECK of the step (R78, R175). -/
def decodeAs (m : Mnemonic) (w : Window) : Except DecodeError Instr :=
  match m with
  | .add => decodeF4R .add w
  | .and => decodeF4R .and w
  | .cmp => decodeF3 .cmp w
  | .div => decodeDiv w
  | .jeq => decodeF2 .jeq w
  | .jge => decodeF2 .jge w
  | .jgt => decodeF2 .jgt w
  | .jle => decodeF2 .jle w
  | .jlt => decodeF2 .jlt w
  | .jmp => decodeF2 .jmp w
  | .jnq => decodeF2 .jnq w
  | .li => decodeF6I .li w
  | .load => decodeF3 .load w
  | .mul => decodeF4R .mul w
  | .mv => decodeF3 .mv w
  | .not => decodeF3 .not w
  | .or => decodeF4R .or w
  | .pop => decodeF2 .pop w
  | .push => decodeF2 .push w
  | .shl => decodeF4S .shl w
  | .shr => decodeF4S .shr w
  | .shra => decodeF4S .shra w
  | .store => decodeF3 .store w
  | .sub => decodeF4R .sub w

/-- Phases DECODE, SELECT and CHECK of the step on a fetch window (R175): the opcode is looked up first, so an unmapped
opcode is illegal whatever the other bytes hold (R194, R196). -/
def decode (o : OpcodeMap) (w : Window) : Except DecodeError Instr :=
  match selectMnemonic o (opcodeOf w) with
  | none => .error (.illegalOpcode (opcodeOf w))
  | some m => decodeAs m w

/-- Decoding of any list of bytes: its first six are the window. -/
def decodeBytes (o : OpcodeMap) (bs : List Byte) : Except DecodeError Instr :=
  match windowOf bs with
  | none => .error .truncated
  | some w => decode o w

/-! ### Encoding -/

/-- The byte of a register field (R73). -/
def regByte (r : RegIdx) : Byte := BitVec.ofNat 8 r.val

/-- The four bytes of a word, most significant first (R43, R75). -/
def wordBytes (v : Word) : List Byte :=
  [v.extractLsb' 24 8, v.extractLsb' 16 8, v.extractLsb' 8 8, v.extractLsb' 0 8]

/-- The bytes of an instruction after its opcode byte, by its format (R76). -/
def operandBytes : Instr → List Byte
  | .add rd ra rb => [regByte rd, regByte ra, regByte rb]
  | .and rd ra rb => [regByte rd, regByte ra, regByte rb]
  | .cmp rd ra => [regByte rd, regByte ra]
  | .div rd ra rb => [regByte rd, regByte ra, regByte rb]
  | .jeq rd => [regByte rd]
  | .jge rd => [regByte rd]
  | .jgt rd => [regByte rd]
  | .jle rd => [regByte rd]
  | .jlt rd => [regByte rd]
  | .jmp rd => [regByte rd]
  | .jnq rd => [regByte rd]
  | .li rd imm => regByte rd :: wordBytes imm
  | .load rd ra => [regByte rd, regByte ra]
  | .mul rd ra rb => [regByte rd, regByte ra, regByte rb]
  | .mv rd ra => [regByte rd, regByte ra]
  | .not rd ra => [regByte rd, regByte ra]
  | .or rd ra rb => [regByte rd, regByte ra, regByte rb]
  | .pop rd => [regByte rd]
  | .push rd => [regByte rd]
  | .shl rd ra amount => [regByte rd, regByte ra, amount]
  | .shr rd ra amount => [regByte rd, regByte ra, amount]
  | .shra rd ra amount => [regByte rd, regByte ra, amount]
  | .store rd ra => [regByte rd, regByte ra]
  | .sub rd ra rb => [regByte rd, regByte ra, regByte rb]

/-- The bytes of an instruction, byte 0 the opcode (R72, R76, R77). -/
def encode (o : OpcodeMap) (i : Instr) : List Byte := o.code i.mnemonic :: operandBytes i

/-! ### The words of the opcode table -/

/-- Byte `k` of the window that holds the `nbits`-bit number `w` of spec/opcode_table.json followed by zero bytes. The table
writes an instruction as one number whose most significant byte is byte 0 (`30_encoding.md`, opening).
DEDUCED (log entry 8). -/
def tableByte (nbits w k : Nat) : Byte :=
  if 8 * (k + 1) ≤ nbits then BitVec.ofNat 8 (w / 2 ^ (nbits - 8 * (k + 1))) else 0

/-- The six bytes of a table word: its own, then zeros. -/
def tableBytes (nbits w : Nat) : List Byte :=
  [tableByte nbits w 0, tableByte nbits w 1, tableByte nbits w 2,
   tableByte nbits w 3, tableByte nbits w 4, tableByte nbits w 5]

/-- The instruction the decoder reads from a word of the opcode table, under the reference OPCODE_MAP the table uses (R6). -/
def decodeTableWord (nbits w : Nat) : Option Instr :=
  match decodeBytes OpcodeMap.reference (tableBytes nbits w) with
  | .ok i => some i
  | .error _ => none

end Sys2Proof
end

