-- ==== Sys2Proof/Machine/State.lean ====
section
/-! DEFINITION. The state of the machine (`10_state.md`), the reasons a step can stop, and reset. -/

namespace Sys2Proof.Machine

/-- Memory as plain data: the bytes that differ from what an unlisted address reads as, addresses strictly rising
(R27; the canonical form is `Memory.wf`). -/
abbrev Memory := List Host.Cell

/-- What an address that is not listed reads as: memory is all zeros after reset (R30, R221). -/
def unlistedByte : Byte := 0

/-- The state. The register file holds pp, sp and fl at the indices REG_MAP gives (R13): there is no second copy. -/
structure State where
  /-- The parameters of this machine. They are no state (R29): nothing writes them.
  DESIGN CHOICE (log entry 1): they ride in State because the host fixes the types of `exec` and `step`. -/
  cfg : Config
  /-- The register file, x[0] to x[17], 32 bits each (R10, R12). -/
  regs : Vector Word 18
  /-- The bytes of memory (R27, R40). -/
  mem : Memory
  deriving DecidableEq, Repr

/-- The four faults of R190, without codes or detail (R198). A fault is the outcome of the step; the state stays what it was
before the step (R197). Each is the spec's own outcome: safe. -/
inductive Fault
  /-- R191. Raised by every step whose fetch window passes MEMSIZE, and by load, store, push and pop whose three bytes do.
  The spec's own fault: safe. -/
  | memoryFault
  /-- R192. Raised by a step whose instruction uses a register index of 18 or more (div: `rd + 1` too). The spec's own
  fault: safe. -/
  | invalidRegister
  /-- R193. Raised by div with a zero divisor. The spec's own fault: safe. -/
  | arithmeticFault
  /-- R194. Raised by a step whose opcode byte is the code of no mnemonic. The spec's own fault: safe. -/
  | illegalInstruction
  deriving DecidableEq, Repr

/-- Reasons the model gives no meaning. No step of this model answers one: every instruction has its meaning. -/
inductive Refusal
  /-- An instruction without a meaning yet, by its mnemonic; raised by exec's arms only, and by none of them now. Safe. -/
  | notModelled (mnemonic : String)
  deriving DecidableEq, Repr

/-- The state after the reset transaction with the given parameters: every register 0, then sp = MEMSIZE - 4, every byte 0
(R220, R221, R30). -/
def State.resetWith (c : Config) : State where
  cfg := c
  regs := (Vector.replicate 18 (0 : Word)).set c.regMap.sp (BitVec.ofNat 32 (c.memSize - 4))
  mem := []

/-- The machine right after reset, with the reference parameters (R6 to R9; MEMSIZE: log entry 3). -/
def State.reset : State := State.resetWith Config.reference

end Sys2Proof.Machine
end

