-- ==== Sys2Proof/Machine/Ops.lean ====
section
/-! DEFINITION. The named operations over registers, memory and faults that every meaning is written with. -/

namespace Sys2Proof.Machine

/-- The outcome of a step of this machine (R174). -/
abbrev Result := Host.Outcome State Fault Refusal

/-! ### Registers -/

/-- `x[i]`, the register file's `get` (R15); an index is a `RegIdx`, so it is in range. -/
def State.get (s : State) (i : RegIdx) : Word := s.regs[i]

/-- `x[i] <- v`, the register file's `set` (R15): all 32 bits, no register read-only, hardwired or masked (R14, R24). -/
def State.set (s : State) (i : RegIdx) (v : Word) : State := { s with regs := s.regs.set i v }

/-- The program pointer, the register at index PP (R13, R16). -/
def State.pp (s : State) : Word := s.get s.cfg.regMap.pp

/-- The stack pointer, the register at index SP (R13, R19). -/
def State.sp (s : State) : Word := s.get s.cfg.regMap.sp

/-- The flags register, the register at index FL (R13, R21). -/
def State.fl (s : State) : Word := s.get s.cfg.regMap.fl

/-- `pp <- v`, unchecked: the check comes at the next fetch (R18). -/
def State.setPp (s : State) (v : Word) : State := s.set s.cfg.regMap.pp v

/-- `sp <- v`, unchecked (R20). -/
def State.setSp (s : State) (v : Word) : State := s.set s.cfg.regMap.sp v

/-- `fl <- v`, all 32 bits (R24). -/
def State.setFl (s : State) (v : Word) : State := s.set s.cfg.regMap.fl v

/-- "Advance pp by n": `pp <- to32(pp + n)`, an increment of whatever pp then holds (R17, R18, R176). -/
def State.advance (s : State) (n : Nat) : State := s.setPp (s.pp + BitVec.ofNat 32 n)

/-! ### Memory -/

/-- The byte listed at an address, or what an unlisted one reads as (R51). -/
def Memory.read : Memory → Nat → Byte
  | [], _ => unlistedByte
  | (k, b) :: m, a => if k = a then b else Memory.read m a

/-- Takes every entry of an address out of the list. -/
def Memory.erase : Memory → Nat → Memory
  | [], _ => []
  | (k, b) :: m, a => if k = a then Memory.erase m a else (k, b) :: Memory.erase m a

/-- Puts an entry before the first larger address. -/
def Memory.insert : Memory → Nat → Byte → Memory
  | [], a, v => [(a, v)]
  | (k, b) :: m, a, v => if a ≤ k then (a, v) :: (k, b) :: m else (k, b) :: Memory.insert m a v

/-- Writes one byte, keeping the canonical form: writing what an unlisted address reads as removes the entry (R41, R51). -/
def Memory.write (m : Memory) (a : Nat) (v : Byte) : Memory :=
  if v = unlistedByte then Memory.erase m a else Memory.insert (Memory.erase m a) a v

/-- The `n` bytes from an address up, lowest address first (R44; ascending order, R52). -/
def Memory.readBytes (m : Memory) (a : Nat) : Nat → List Byte
  | 0 => []
  | n + 1 => Memory.read m a :: Memory.readBytes m (a + 1) n

/-- Writes bytes from an address up, lowest address first (R46, R52). -/
def Memory.writeBytes (m : Memory) (a : Nat) : List Byte → Memory
  | [] => m
  | v :: vs => Memory.writeBytes (Memory.write m a v) (a + 1) vs

/-- The canonical form from an address up: strictly rising addresses, no entry equal to what an unlisted address reads as. -/
def Memory.wfFrom : Nat → Memory → Bool
  | _, [] => true
  | lo, (k, b) :: m => decide (lo ≤ k) && decide (b ≠ unlistedByte) && Memory.wfFrom (k + 1) m

/-- The canonical form of a memory. -/
def Memory.wf (m : Memory) : Bool := Memory.wfFrom 0 m

/-- Every listed address is below `n`: memory has the addresses 0..n-1 and no others (R27). -/
def Memory.below (n : Nat) (m : Memory) : Bool := m.all (fun c => decide (c.1 < n))

/-- An access of `n` bytes at `addr` is admitted exactly when `addr + n <= MEMSIZE`, over unbounded integers (R45). -/
abbrev State.inRange (s : State) (addr n : Nat) : Prop := addr + n ≤ s.cfg.memSize

/-- `MemRead(addr, n)` (R44): the bytes, lowest address first, or MemoryFault. -/
def State.memRead (s : State) (addr n : Nat) : Except Fault (List Byte) :=
  if s.inRange addr n then .ok (Memory.readBytes s.mem addr n) else .error .memoryFault

/-- The state with another memory; parameters and registers stay. -/
def State.setMem (s : State) (m : Memory) : State := { s with mem := m }

/-- `MemWrite(addr, n, v)` (R46): the whole range is checked first, so a write is all or nothing. -/
def State.memWrite (s : State) (addr : Nat) (bs : List Byte) : Except Fault State :=
  if s.inRange addr bs.length then .ok (s.setMem (Memory.writeBytes s.mem addr bs)) else .error .memoryFault

/-! ### Faults -/

/-- Raising a fault, the one exceptional event of the hardware (R190): the step ends with it and that is all. Nothing is
saved (no cause, address, pp or flags register), nothing changes and control goes nowhere (R197, R198), so the outcome
carries the fault alone. There is no return from a fault (R199, R200): no operation stands beside this one. -/
def State.raise (_ : State) (f : Fault) : Result := .fault f

/-! ### The front end of the step -/

/-- The name a rejected window's fault has (R192, R194). A window of fewer than six bytes is never given: its fetch raised
MemoryFault (R71). -/
def faultOfDecode : DecodeError → Fault
  | .truncated => .memoryFault
  | .illegalOpcode _ => .illegalInstruction
  | .invalidRegister _ => .invalidRegister

/-- Phases FETCH, DECODE, SELECT and CHECK of the step, in that order (R70, R71, R175, R196). -/
def State.fetchInstr (s : State) : Except Fault Instr :=
  match s.memRead s.pp.toNat 6 with
  | .error f => .error f
  | .ok bs =>
    match decodeBytes s.cfg.opcodeMap bs with
    | .error e => .error (faultOfDecode e)
    | .ok i => .ok i

end Sys2Proof.Machine
end

