-- ==== Sys2Proof/Machine/Operands.lean ====
section
/-! DEFINITION. The operand forms: register direct is `State.get` and `State.set`; the shift amount is `shamtOf` and the
immediate `imm32Of` (Decode); here are the memory operand (register-indirect, R133) with its widening and narrowing (R49),
and the shapes in which results are written. -/

namespace Sys2Proof.Machine

/-- The three bytes of a memory word, most significant first (R43, R46). -/
def bytes24 (v : Word24) : List Byte := [v.extractLsb' 16 8, v.extractLsb' 8 8, v.extractLsb' 0 8]

/-- The memory word of three bytes, the first most significant (R43, R44). `State.memRead` with width 3 gives three; the
other lists never come here. -/
def word24 : List Byte → Word24
  | [b0, b1, b2] => b0 ++ b1 ++ b2
  | _ => 0

/-- `v[23:0]`: what store and push keep of a register (R49). -/
def low24 (v : Word) : Word24 := v.extractLsb' 0 24

/-- `zext_32(w)`: what load and pop write (R49). -/
def zext32 (w : Word24) : Word := w.zeroExtend 32

/-- The memory operand read by load and pop: the 24-bit word at the address a register holds, all 32 bits of it unsigned
(R42, R48, R133). -/
def State.load24 (s : State) (addr : Word) : Except Fault Word24 :=
  match s.memRead addr.toNat 3 with
  | .error f => .error f
  | .ok bs => .ok (word24 bs)

/-- The memory operand written by store and push (R42, R46, R48, R133). -/
def State.store24 (s : State) (addr : Word) (v : Word24) : Except Fault State :=
  s.memWrite addr.toNat (bytes24 v)

/-- The shape of an instruction with one register result: `x[rd] <- v`, then pp is advanced (R109, R176). -/
def State.writeResult (s : State) (rd : RegIdx) (v : Word) (n : Nat) : Result := .next ((s.set rd v).advance n)

/-- The shape of a conditional jump: `pp <- x[rd]` without the length, or pp + 2 (R157). -/
def State.jumpIf (s : State) (taken : Bool) (rd : RegIdx) : Result :=
  if taken then .next (s.setPp (s.get rd)) else .next (s.advance 2)

/-- The register after `rd` in the register file, div's second destination; the index is checked (R78, R122). -/
def nextReg (rd : RegIdx) : Except Fault RegIdx :=
  match checkReg (rd.val + 1) with
  | .error e => .error (faultOfDecode e)
  | .ok r => .ok r

end Sys2Proof.Machine
end

