-- ==== Sys2Proof/Machine/Alu.lean ====
section
/-! DEFINITION. add, sub, and, or, not, mv, shl, shr, shra (`40_alu_move_shift.md`). Sources are read before rd is written,
nothing touches fl unless rd is FL, and none faults (R109). -/

namespace Sys2Proof.Machine

/-- add (R100): the sum modulo 2^32. -/
def execAdd (rd ra rb : RegIdx) (s : State) : Result := s.writeResult rd (s.get ra + s.get rb) 4

/-- sub (R101): `ra - rb` modulo 2^32. -/
def execSub (rd ra rb : RegIdx) (s : State) : Result := s.writeResult rd (s.get ra - s.get rb) 4

/-- and (R102). -/
def execAnd (rd ra rb : RegIdx) (s : State) : Result := s.writeResult rd (s.get ra &&& s.get rb) 4

/-- or (R103). -/
def execOr (rd ra rb : RegIdx) (s : State) : Result := s.writeResult rd (s.get ra ||| s.get rb) 4

/-- not (R104): all 32 bits inverted. -/
def execNot (rd ra : RegIdx) (s : State) : Result := s.writeResult rd (~~~ s.get ra) 3

/-- mv (R105): all 32 bits copied. -/
def execMv (rd ra : RegIdx) (s : State) : Result := s.writeResult rd (s.get ra) 3

/-- shl (R106): zeros enter at bit 0. -/
def execShl (rd ra : RegIdx) (amount : Byte) (s : State) : Result := s.writeResult rd (s.get ra <<< shamtOf amount) 4

/-- shr (R107): zeros enter at bit 31. -/
def execShr (rd ra : RegIdx) (amount : Byte) (s : State) : Result := s.writeResult rd (s.get ra >>> shamtOf amount) 4

/-- shra (R108): copies of bit 31 enter at the top. -/
def execShra (rd ra : RegIdx) (amount : Byte) (s : State) : Result :=
  s.writeResult rd ((s.get ra).sshiftRight (shamtOf amount)) 4

end Sys2Proof.Machine
end

