-- ==== Sys2Proof/Machine/Flags.lean ====
section
/-! DEFINITION. The flags of fl (R21 to R24), the flag computation of cmp (R120) and the predicates of the conditional
jumps (`44_jumps.md`). -/

namespace Sys2Proof.Machine

/-- `v` with bit `k` set or cleared and the other 31 bits kept. -/
def withBit (v : Word) (k : Fin 32) (b : Bool) : Word :=
  if b then v ||| BitVec.twoPow 32 k.val else v &&& ~~~(BitVec.twoPow 32 k.val)

/-- `flag(F)`: bit FLAG_BIT(F) of fl (`00_scope.md` section 5.2). -/
def State.flag (s : State) (f : Flag) : Bool := s.fl.getLsbD (s.cfg.flagMap.bit f).val

/-- `flag(F) <- b`: that one bit is written, the other 31 bits of fl stay. -/
def State.setFlag (s : State) (f : Flag) (b : Bool) : State := s.setFl (withBit s.fl (s.cfg.flagMap.bit f) b)

/-- LESS of cmp: the left operand is less than the right, both signed (R120, R123). -/
def cmpLess (a b : Word) : Bool := decide (a.toInt < b.toInt)

/-- EQUAL of cmp: the operands are equal (R120). -/
def cmpEqual (a b : Word) : Bool := decide (a.toInt = b.toInt)

/-- EQUAL set (R151). -/
def State.condJeq (s : State) : Bool := s.flag .equal

/-- EQUAL clear (R152). -/
def State.condJnq (s : State) : Bool := !s.flag .equal

/-- LESS set (R153). -/
def State.condJlt (s : State) : Bool := s.flag .less

/-- LESS clear (R154). -/
def State.condJge (s : State) : Bool := !s.flag .less

/-- LESS clear and EQUAL clear (R155). -/
def State.condJgt (s : State) : Bool := !s.flag .less && !s.flag .equal

/-- LESS set or EQUAL set (R156). -/
def State.condJle (s : State) : Bool := s.flag .less || s.flag .equal

end Sys2Proof.Machine
end

