-- ==== Sys2Proof/Machine/Arith.lean ====
section
/-! DEFINITION. cmp, mul, div (`41_compare_mul_div.md`). -/

namespace Sys2Proof.Machine

/-- cmp (R120): both operands are read, then LESS, then EQUAL is written, then pp is advanced. -/
def execCmp (rd ra : RegIdx) (s : State) : Result :=
  let a := s.get rd
  let b := s.get ra
  .next (((s.setFlag .less (cmpLess a b)).setFlag .equal (cmpEqual a b)).advance 3)

/-- mul (R121): accumulates into rd, low 32 bits. -/
def execMul (rd ra rb : RegIdx) (s : State) : Result := s.writeResult rd (s.get rd + s.get ra * s.get rb) 4

/-- div (R122): signed, quotient rounded toward zero to rd, remainder with the sign of the dividend to rd + 1; a zero divisor
faults before anything is written, and the check of rd + 1 comes before the divisor is looked at (R78, R196). -/
def execDiv (rd ra rb : RegIdx) (s : State) : Result :=
  match nextReg rd with
  | .error f => s.raise f
  | .ok rd1 =>
    let a := (s.get ra).toInt
    let b := (s.get rb).toInt
    if b = 0 then s.raise .arithmeticFault
    else
      let q := a.tdiv b
      let r := a - q * b
      .next (((s.set rd (to32 q)).set rd1 (to32 r)).advance 4)

end Sys2Proof.Machine
end

