-- ==== Sys2Proof/Machine/Jump.lean ====
section
/-! DEFINITION. jmp, jeq, jnq, jlt, jge, jgt, jle (`44_jumps.md`, R157). -/

namespace Sys2Proof.Machine

/-- jmp (R150). -/
def execJmp (rd : RegIdx) (s : State) : Result := .next (s.setPp (s.get rd))

/-- jeq (R151). -/
def execJeq (rd : RegIdx) (s : State) : Result := s.jumpIf s.condJeq rd

/-- jnq (R152). -/
def execJnq (rd : RegIdx) (s : State) : Result := s.jumpIf s.condJnq rd

/-- jlt (R153). -/
def execJlt (rd : RegIdx) (s : State) : Result := s.jumpIf s.condJlt rd

/-- jge (R154). -/
def execJge (rd : RegIdx) (s : State) : Result := s.jumpIf s.condJge rd

/-- jgt (R155). -/
def execJgt (rd : RegIdx) (s : State) : Result := s.jumpIf s.condJgt rd

/-- jle (R156). -/
def execJle (rd : RegIdx) (s : State) : Result := s.jumpIf s.condJle rd

end Sys2Proof.Machine
end

