-- ==== Sys2Proof/Machine/LoadStore.lean ====
section
/-! DEFINITION. li, load, store (`42_li_load_store.md`). -/

namespace Sys2Proof.Machine

/-- li (R130). -/
def execLi (rd : RegIdx) (imm : Word) (s : State) : Result := s.writeResult rd imm 6

/-- load (R131): the word at the address in ra, zero-extended into rd. -/
def execLoad (rd ra : RegIdx) (s : State) : Result :=
  match s.load24 (s.get ra) with
  | .error f => s.raise f
  | .ok w => s.writeResult rd (zext32 w) 3

/-- store (R132): the low 24 bits of ra to the address in rd; then, by STORE_ADVANCES_PP (R9), pp + 3 with sp untouched, or
the quirk, sp + 3 with pp untouched. -/
def execStore (rd ra : RegIdx) (s : State) : Result :=
  match s.store24 (s.get rd) (low24 (s.get ra)) with
  | .error f => s.raise f
  | .ok t => if s.cfg.storeAdvancesPp then .next (t.advance 3) else .next (t.setSp (t.sp + 3))

end Sys2Proof.Machine
end

