-- ==== Sys2Proof/Machine/Stack.lean ====
section
/-! DEFINITION. push, pop (`43_stack.md`). -/

namespace Sys2Proof.Machine

/-- push (R140): sp - 4 first, then rd is read and its low 24 bits are written at the new sp; a fault leaves the state as it
was before the decrement. -/
def execPush (rd : RegIdx) (s : State) : Result :=
  let t := s.setSp (s.sp - 4)
  match t.store24 (s.sp - 4) (low24 (t.get rd)) with
  | .error f => s.raise f
  | .ok u => .next (u.advance 2)

/-- pop (R141): the word at sp, zero-extended, to rd; then sp + 4, then pp + 2. -/
def execPop (rd : RegIdx) (s : State) : Result :=
  match s.load24 s.sp with
  | .error f => s.raise f
  | .ok w =>
    let t := s.set rd (zext32 w)
    .next ((t.setSp (t.sp + 4)).advance 2)

end Sys2Proof.Machine
end

