-- ==== Sys2Proof/Machine/Dispatch.lean ====
section
/-! DEFINITION. exec: one arm per instruction, each a direct call of its meaning (phase EXECUTE of R175). -/

namespace Sys2Proof.Machine

def exec (i : Instr) (s : State) : Host.Outcome State Fault Refusal :=
  match i with
  | .add rd ra rb => Sys2Proof.Machine.execAdd rd ra rb s
  | .and rd ra rb => Sys2Proof.Machine.execAnd rd ra rb s
  | .cmp rd ra => Sys2Proof.Machine.execCmp rd ra s
  | .div rd ra rb => Sys2Proof.Machine.execDiv rd ra rb s
  | .jeq rd => Sys2Proof.Machine.execJeq rd s
  | .jge rd => Sys2Proof.Machine.execJge rd s
  | .jgt rd => Sys2Proof.Machine.execJgt rd s
  | .jle rd => Sys2Proof.Machine.execJle rd s
  | .jlt rd => Sys2Proof.Machine.execJlt rd s
  | .jmp rd => Sys2Proof.Machine.execJmp rd s
  | .jnq rd => Sys2Proof.Machine.execJnq rd s
  | .li rd imm => Sys2Proof.Machine.execLi rd imm s
  | .load rd ra => Sys2Proof.Machine.execLoad rd ra s
  | .mul rd ra rb => Sys2Proof.Machine.execMul rd ra rb s
  | .mv rd ra => Sys2Proof.Machine.execMv rd ra s
  | .not rd ra => Sys2Proof.Machine.execNot rd ra s
  | .or rd ra rb => Sys2Proof.Machine.execOr rd ra rb s
  | .pop rd => Sys2Proof.Machine.execPop rd s
  | .push rd => Sys2Proof.Machine.execPush rd s
  | .shl rd ra amount => Sys2Proof.Machine.execShl rd ra amount s
  | .shr rd ra amount => Sys2Proof.Machine.execShr rd ra amount s
  | .shra rd ra amount => Sys2Proof.Machine.execShra rd ra amount s
  | .store rd ra => Sys2Proof.Machine.execStore rd ra s
  | .sub rd ra rb => Sys2Proof.Machine.execSub rd ra rb s

end Sys2Proof.Machine
end

