-- ==== Sys2Proof/Machine/Step.lean ====
section
/-! DEFINITION. One step of the machine (`50_interfaces_and_step.md` R174, R175), and the placing of one instruction where
the next step fetches. -/

namespace Sys2Proof.Machine

/-- `nextInstruction()`: fetch, decode, select, check, then execute (R175). A fault leaves the state as it was (R197), so
the outcome carries the fault alone. -/
def step (s : State) : Host.Outcome State Fault Refusal :=
  match s.fetchInstr with
  | .error f => .fault f
  | .ok i => exec i s

/-- `s` with an instruction of spec/opcode_table.json, followed by zero bytes, in the six bytes of the next fetch window.
Nothing else changes. Where the window does not fit in memory there is nowhere to put it, and the state stays as it is. It
stands for the image load (R173; log entry 9). -/
def State.withFetchWord (s : State) (nbits w : Nat) : State :=
  match s.memWrite s.pp.toNat (tableBytes nbits w) with
  | .ok t => t
  | .error _ => s

end Sys2Proof.Machine
end

