-- ==== Sys2Proof/Machine/Driver.lean ====
section
/-! DEFINITION. The interfaces of the core towards its driver (R170): reset, image load, step with its report, inspection,
and the driver's loop. None of them is part of a step; they act between steps (R177). -/

namespace Sys2Proof.Machine

/-! ### Reset (`70_reset_and_hazards.md`) -/

/-- `new(memorySize)` (R220): the state of R221, or nothing where the parameters are outside what the spec admits
("a model refuses to construct it", R5). -/
def construct (c : Config) : Option State := if c.Valid then some (State.resetWith c) else none

/-! ### Image load (R173, R195) -/

/-- Why an image is refused. These are the loader's errors and never a step's outcome (R190, R195). -/
inductive LoadError
  /-- the text is not pairs of hex digits (R195) -/
  | malformedImage
  /-- the image is longer than memory (R173) -/
  | imageTooLong
  deriving DecidableEq, Repr

/-- Image byte k goes to address k; nothing else changes; an image longer than MEMSIZE is refused and writes nothing
(R173). -/
def State.loadImage (s : State) (img : List Byte) : Except LoadError State :=
  match s.memWrite 0 img with
  | .error _ => .error .imageTooLong
  | .ok t => .ok t

/-- The value of a hex digit. DESIGN CHOICE (log entry 11): both cases of the letters are digits; the spec does not say. -/
def hexDigit (c : Char) : Option Nat :=
  let n := c.toNat
  if 48 ≤ n ∧ n ≤ 57 then some (n - 48)
  else if 65 ≤ n ∧ n ≤ 70 then some (n - 55)
  else if 97 ≤ n ∧ n ≤ 102 then some (n - 87)
  else none

/-- The bytes of a hex text: two characters a byte, the first the high nibble (R173); an odd length or another character is
malformed (R195). -/
def parseHex : List Char → Except LoadError (List Byte)
  | [] => .ok []
  | [_] => .error .malformedImage
  | h :: l :: rest =>
    match hexDigit h, hexDigit l, parseHex rest with
    | some x, some y, .ok bs => .ok (BitVec.ofNat 8 (16 * x + y) :: bs)
    | _, _, _ => .error .malformedImage

/-- `loadFile(hex)` (R173). DESIGN CHOICE (log entry 11): the text is parsed whole before the length is checked. -/
def State.loadFile (s : State) (hex : List Char) : Except LoadError State :=
  match parseHex hex with
  | .error e => .error e
  | .ok img => s.loadImage img

/-! ### Step and its report (R174, R197, R198) -/

/-- What the driver is told of a step: ok or fault(kind) (R174). A refusal is the model's own third answer and never
comes. -/
inductive Report
  | ok
  | fault (f : Fault)
  | refused (r : Refusal)
  deriving DecidableEq, Repr

/-- The step as the driver sees it: the state after it, which is the state before it when the outcome is a fault (R197), and
the report. -/
def State.nextInstruction (s : State) : State × Report :=
  match step s with
  | .next t => (t, .ok)
  | .fault f => (s, .fault f)
  | .refused r => (s, .refused r)

/-- `k` further steps after a step and its report, whatever they report: a driver that goes on after a fault (R199). -/
def State.stepOn : Nat → State × Report → State × Report
  | 0, p => p
  | k + 1, p => State.stepOn k p.1.nextInstruction

/-- The driver's loop (R180): it steps until a step does not complete, until `stop` holds of the state, or until `k` steps are
done. STOP_POLICY is the driver's, so it is an argument. -/
def State.drive (stop : State → Bool) : Nat → State → State × Report
  | 0, s => (s, .ok)
  | k + 1, s =>
    if stop s then (s, .ok)
    else
      match s.nextInstruction with
      | (t, .ok) => State.drive stop k t
      | (t, .fault f) => (t, .fault f)
      | (t, .refused r) => (t, .refused r)

/-! ### Inspection (R31, R178) -/

/-- The general registers in index order: every index but PP, SP and FL (R11). -/
def generalRegs (r : RegMap) : List RegIdx :=
  (List.finRange 18).filter (fun i => decide (i ≠ r.pp ∧ i ≠ r.sp ∧ i ≠ r.fl))

/-- The name of a register under REG_MAP (R7, R31): the first general register has the first of REG_MAP's names, and so on.
DEDUCED (log entry 12): pp, sp and fl are shown under those names whatever their indices. With fewer than three distinct
special indices, which R7 excludes (log entry 14), a general register left without a name has the empty one. -/
def regName (r : RegMap) (i : RegIdx) : String :=
  if i = r.pp then "pp"
  else if i = r.sp then "sp"
  else if i = r.fl then "fl"
  else r.gprNames.toList.getD ((generalRegs r).idxOf i) ""

/-- The 18 pairs of name and value in index order (R31, R178). -/
def State.registerList (s : State) : List (String × Word) :=
  (List.finRange 18).map (fun i => (regName s.cfg.regMap i, s.get i))

/-- The MEMSIZE bytes of memory in address order (R178). -/
def State.memoryContents (s : State) : List Byte := Memory.readBytes s.mem 0 s.cfg.memSize

end Sys2Proof.Machine
end

