-- ==== Sys2Proof/Safety.lean ====
section
/-! DEFINITION. What claims call a good state and a safe run. -/

namespace Sys2Proof.Machine

/-- The invariant of the machine: the parameters are what R5 to R8 ask, memory is in canonical form, and only the addresses
0..MEMSIZE-1 hold bytes (R27). -/
abbrev State.Inv (s : State) : Prop :=
  s.cfg.Valid ∧ Memory.wf s.mem = true ∧ Memory.below s.cfg.memSize s.mem = true

/-- The next step completes: its outcome is ok (R174). -/
def State.Completes (s : State) : Prop := ∃ t, step s = .next t

/-- `k` steps from `s` complete and end in `t`: a run as the driver makes it (R180). A fault ends a run and is never a
final state (R199). -/
inductive Reaches : Nat → State → State → Prop
  | here (s : State) : Reaches 0 s s
  | more (k : Nat) (s t u : State) : step s = .next t → Reaches k t u → Reaches (k + 1) s u

/-- The core is parked: every further step leaves the state as it is (R150, R231). -/
def State.Parked (s : State) : Prop := step s = .next s

end Sys2Proof.Machine
end

