-- ==== Sys2Proof/Certificates/Slice0/Obligations.lean ====
section
/-! DEFINITION. The statements for the provers. Each docstring names the rule of spec/ it formalises. Where a rule carries one
of the spec's decisions (92_eei_decisions D1 to D27), the docstring names it. The definitions before the statements are their
vocabulary, written in the spec's own arithmetic over integers and bytes. -/

namespace Sys2Proof.Claims

open Sys2Proof.Machine

/-- `signed(v)` of `00_scope.md` section 5.1: `v` below 2^31, `v - 2^32` otherwise. -/
def signed (v : Word) : Int := if v.toNat < 2 ^ 31 then v.toNat else (v.toNat : Int) - 2 ^ 32

/-- The bytes of `i` under every OPCODE_MAP are its code and then `operands`, and the reference code is `code`. -/
def EncodedAs (i : Instr) (m : Mnemonic) (code : Nat) (operands : List Nat) : Prop :=
  (∀ o : OpcodeMap, (encode o i).map BitVec.toNat = (o.code m).toNat :: operands) ∧
  (OpcodeMap.reference.code m).toNat = code

/-- Every byte of memory reads in `t` as in `s`. -/
def SameMemory (s t : State) : Prop := ∀ a : Nat, Memory.read t.mem a = Memory.read s.mem a

/-- `t` is `s` after `x[rd] <- v` and then an advance of pp by `n` (R17, R109): where rd is PP the advance is of `v`. No other
register, fl and sp among them, no byte of memory and no parameter differs. -/
def ResultEffect (s t : State) (rd : RegIdx) (v : Word) (n : Nat) : Prop :=
  t.cfg = s.cfg ∧ SameMemory s t ∧
  (rd ≠ s.cfg.regMap.pp → t.get rd = v ∧ t.pp = to32 (s.pp.toNat + n)) ∧
  (rd = s.cfg.regMap.pp → t.pp = to32 (v.toNat + n)) ∧
  ∀ r : RegIdx, r ≠ rd → r ≠ s.cfg.regMap.pp → t.get r = s.get r

/-- `t` is `s` with pp the target where `taken`, and pp + 2 otherwise; no other register, no byte and no parameter differs. -/
def JumpEffect (s t : State) (taken : Prop) (rd : RegIdx) : Prop :=
  t.cfg = s.cfg ∧ SameMemory s t ∧
  (taken → t.pp = s.get rd) ∧ (¬ taken → t.pp = to32 (s.pp.toNat + 2)) ∧
  ∀ r : RegIdx, r ≠ s.cfg.regMap.pp → t.get r = s.get r

/-- Flag `f` is 1 in fl. -/
def FlagSet (s : State) (f : Flag) : Prop := s.fl.toNat.testBit (s.cfg.flagMap.bit f).val = true

/-- The 24-bit number at an address, lowest address most significant (R43, R44). -/
def wordAt (s : State) (a : Nat) : Nat :=
  (Memory.read s.mem a).toNat * 65536 + (Memory.read s.mem (a + 1)).toNat * 256 + (Memory.read s.mem (a + 2)).toNat

/-- The low 24 bits of `v` stand big-endian at `a`, `a + 1`, `a + 2`, and every other byte reads as in `s`. -/
def StoredAt (s t : State) (a : Nat) (v : Word) : Prop :=
  (Memory.read t.mem a).toNat = v.toNat / 65536 % 256 ∧
  (Memory.read t.mem (a + 1)).toNat = v.toNat / 256 % 256 ∧
  (Memory.read t.mem (a + 2)).toNat = v.toNat % 256 ∧
  ∀ x : Nat, x < a ∨ a + 3 ≤ x → Memory.read t.mem x = Memory.read s.mem x

/-- Byte `k` of the fetch window, as a number. -/
def windowByte (s : State) (k : Nat) : Nat := (Memory.read s.mem (s.pp.toNat + k)).toNat

/-- The indices a mnemonic's bytes 1, 2, 3 give, by the table of R78. -/
def usedIndices (m : Mnemonic) (rd ra rb : Nat) : List Nat :=
  match m with
  | .push | .pop | .jmp | .jeq | .jnq | .jlt | .jge | .jgt | .jle => [rd]
  | .not | .mv | .cmp | .load | .store => [rd, ra]
  | .add | .sub | .and | .or | .mul => [rd, ra, rb]
  | .div => [rd, rd + 1, ra, rb]
  | .shl | .shr | .shra => [rd, ra]
  | .li => [rd]

/-- The address of an instruction's data access, if it makes one (R48). -/
def dataAddress (s : State) : Instr → Option Nat
  | .load _ ra => some (s.get ra).toNat
  | .store rd _ => some (s.get rd).toNat
  | .push _ => some (to32 ((s.sp.toNat : Int) - 4)).toNat
  | .pop _ => some s.sp.toNat
  | _ => none

/-- The indices an instruction writes as its rd (R14): div also writes rd + 1. -/
def destinations : Instr → List Nat
  | .add rd _ _ | .and rd _ _ | .sub rd _ _ | .or rd _ _ | .mul rd _ _ => [rd]
  | .not rd _ | .mv rd _ | .load rd _ => [rd]
  | .shl rd _ _ | .shr rd _ _ | .shra rd _ _ => [rd]
  | .li rd _ => [rd]
  | .pop rd => [rd]
  | .div rd _ _ => [rd, rd + 1]
  | _ => []

/-- The registers an instruction writes without naming them (R14, R17, R19, R22). -/
def implicitWrites (c : Config) (i : Instr) (r : RegIdx) : Prop :=
  r = c.regMap.pp ∨
  (r = c.regMap.sp ∧ (i.mnemonic = .push ∨ i.mnemonic = .pop ∨ (i.mnemonic = .store ∧ c.storeAdvancesPp = false))) ∨
  (r = c.regMap.fl ∧ i.mnemonic = .cmp)

/-- The bytes of a window in order. -/
def windowBytes (w : Window) : List Byte := [w.b0, w.b1, w.b2, w.b3, w.b4, w.b5]

end Sys2Proof.Claims

open Sys2Proof Sys2Proof.Machine Sys2Proof.Claims

/-! ### Encoding (`30_encoding.md`) -/

/-- R70 to R77, R80: the bytes of a well-formed instruction, followed by any bytes, decode to it, under every valid
OPCODE_MAP and for every value of every operand. -/
def Obligations.DecodeOfEncodeIsTheInstruction : Prop :=
  ∀ (c : Config) (i : Instr) (rest : List Byte), c.Valid → i.wellFormed = true → 6 ≤ (encode c.opcodeMap i ++ rest).length →
    decodeBytes c.opcodeMap (encode c.opcodeMap i ++ rest) = .ok i

/-- R76, R80: an instruction decoded from a window encodes to the window's first bytes, as many as its length: no window is
read as an instruction whose bytes differ from it. -/
def Obligations.EncodeOfDecodeIsTheWindow : Prop :=
  ∀ (o : OpcodeMap) (w : Window) (i : Instr), decode o w = .ok i →
    encode o i = (windowBytes w).take (instrLength i)

/-- R78: what the decoder accepts is well-formed. -/
def Obligations.DecodedInstructionsAreWellFormed : Prop :=
  ∀ (o : OpcodeMap) (bs : List Byte) (i : Instr), decodeBytes o bs = .ok i → i.wellFormed = true

/-- R76, R81: the lengths by mnemonic, 2, 3, 4 or 6 bytes. -/
def Obligations.LengthFollowsFromTheOpcode : Prop :=
  ∀ (o : OpcodeMap) (i : Instr), (encode o i).length =
    if i.mnemonic ∈ [.push, .pop, .jmp, .jeq, .jnq, .jlt, .jge, .jgt, .jle] then 2
    else if i.mnemonic ∈ [.not, .mv, .cmp, .load, .store] then 3
    else if i.mnemonic ∈ [.add, .sub, .and, .or, .mul, .div, .shl, .shr, .shra] then 4
    else 6

/-- R80, R82: bytes of the window past the instruction's length do not change what is decoded. -/
def Obligations.BytesPastTheLengthAreIgnored : Prop :=
  ∀ (c : Config) (m : Mnemonic) (w w' : Window), c.Valid → c.opcodeMap.code m = w.b0 →
    (windowBytes w).take (formatLength (formatOf m)) = (windowBytes w').take (formatLength (formatOf m)) →
    decode c.opcodeMap w = decode c.opcodeMap w'

/-- Words of `95_test_vectors.md` (V4, V38, V50, V72, V14, V90, V116, V130, V145, V21) in the reference instantiation. -/
def Obligations.SampleWordsDecode : Prop :=
  decodeTableWord 32 0x000F0001 = some (.add 15 0 1) ∧ decodeTableWord 24 0x021101 = some (.cmp 17 1) ∧
  decodeTableWord 32 0x03050304 = some (.div 5 3 4) ∧ decodeTableWord 48 0x0B0012000000 = some (.li 0 0x12000000) ∧
  decodeTableWord 24 0x0E0F01 = some (.mv 15 1) ∧ decodeTableWord 24 0x160001 = some (.store 0 1) ∧
  decodeTableWord 16 0x110F = some (.pop 15) ∧ decodeTableWord 16 0x090F = some (.jmp 15) ∧
  decodeTableWord 24 0x0F0100 = some (.not 1 0) ∧ decodeTableWord 32 0x130100FF = some (.shl 1 0 0xFF)

/-! ### The front end of the step and the faults (`50_interfaces_and_step.md`, `60_exceptions.md`) -/

/-- R175: a step whose window is in memory and decodes to `i` is `exec i`; nothing is added around it, every meaning moves pp
itself (R17). -/
def Obligations.StepRunsTheDecodedInstruction : Prop :=
  ∀ (s : State) (i : Instr), s.pp.toNat + 6 ≤ s.cfg.memSize →
    decodeBytes s.cfg.opcodeMap (Memory.readBytes s.mem s.pp.toNat 6) = .ok i → step s = exec i s

/-- R174, R197 (the spec's decision D10): a step is ok with the next state or a fault that leaves the state as it was; there is no third outcome. -/
def Obligations.StepIsOkOrAFaultThatChangesNothing : Prop :=
  ∀ s : State,
    (∃ t, step s = .next t ∧ s.nextInstruction = (t, .ok)) ∨
    (∃ f, step s = .fault f ∧ s.nextInstruction = (s, .fault f))

/-- R199 (derived by the spec): after a fault every further step, if one is taken, gives the same fault in the same state; the
driver's loop takes none and ends with that fault. -/
def Obligations.AFaultRepeatsForever : Prop :=
  ∀ (s : State) (f : Fault), step s = .fault f → ∀ k : Nat,
    State.stepOn k s.nextInstruction = (s, .fault f) ∧ s.drive (fun _ => false) (k + 1) = (s, .fault f)

/-- R196 (the spec's decision D9): the first fault in the order of the phases is the one reported; past the checks only div's
ArithmeticFault and the data MemoryFault are left. -/
def Obligations.TheFirstFaultInPhaseOrderIsReported : Prop :=
  ∀ s : State, s.cfg.Valid →
    (s.cfg.memSize < s.pp.toNat + 6 → step s = .fault .memoryFault) ∧
    (s.pp.toNat + 6 ≤ s.cfg.memSize →
      ((∀ m, (s.cfg.opcodeMap.code m).toNat ≠ windowByte s 0) → step s = .fault .illegalInstruction) ∧
      ∀ m, (s.cfg.opcodeMap.code m).toNat = windowByte s 0 →
        ((∃ k ∈ usedIndices m (windowByte s 1) (windowByte s 2) (windowByte s 3), 18 ≤ k) →
          step s = .fault .invalidRegister) ∧
        ((∀ k ∈ usedIndices m (windowByte s 1) (windowByte s 2) (windowByte s 3), k < 18) →
          ∃ i, i.mnemonic = m ∧ step s = exec i s ∧
            ∀ f, exec i s = .fault f →
              (f = .arithmeticFault ∧ m = .div) ∨ (f = .memoryFault ∧ m ∈ [.load, .store, .push, .pop])))

/-- R191: MemoryFault exactly for a fetch window, or the three bytes of load, store, push, pop, that pass MEMSIZE, over
unbounded integers (the spec's decisions D6, D20). -/
def Obligations.MemoryFaultExactlyPastTheEnd : Prop :=
  ∀ s : State, step s = .fault .memoryFault ↔
    s.cfg.memSize < s.pp.toNat + 6 ∨
    ∃ i a, s.fetchInstr = .ok i ∧ dataAddress s i = some a ∧ s.cfg.memSize < a + 3

/-- R192, with the table of R78 (the spec's decision D8): InvalidRegister exactly when the window is in memory, its opcode is
a mnemonic's, and a byte that mnemonic uses as an index (div: rd + 1 too) is 18 or more. -/
def Obligations.InvalidRegisterExactlyForUsedIndices : Prop :=
  ∀ s : State, s.cfg.Valid → (step s = .fault .invalidRegister ↔
    s.pp.toNat + 6 ≤ s.cfg.memSize ∧ ∃ m, (s.cfg.opcodeMap.code m).toNat = windowByte s 0 ∧
      ∃ k ∈ usedIndices m (windowByte s 1) (windowByte s 2) (windowByte s 3), 18 ≤ k)

/-- R193: ArithmeticFault is raised by div, and only by div, when the divisor register is 0. -/
def Obligations.ArithmeticFaultExactlyForAZeroDivisor : Prop :=
  ∀ s : State, step s = .fault .arithmeticFault ↔
    ∃ rd ra rb, s.fetchInstr = .ok (.div rd ra rb) ∧ s.get rb = 0

/-- R194, R79 (the spec's decision D7): IllegalInstruction exactly when the window is in memory and byte 0 is the code of no
mnemonic, whatever the other five bytes are; under the reference OPCODE_MAP the 232 bytes from 0x18 up are those. -/
def Obligations.IllegalInstructionExactlyForUnmappedOpcodes : Prop :=
  (∀ s : State, step s = .fault .illegalInstruction ↔
    s.pp.toNat + 6 ≤ s.cfg.memSize ∧ ∀ m, (s.cfg.opcodeMap.code m).toNat ≠ windowByte s 0) ∧
  ∀ b : Byte, (∀ m, OpcodeMap.reference.code m ≠ b) ↔ 0x18 ≤ b.toNat

/-! ### Arithmetic, logic, move and shift (`40_alu_move_shift.md`) -/

/-- R100 (the wrap: the spec's decision D12). -/
def Obligations.AddWritesTheSum : Prop :=
  ∀ (s : State) (rd ra rb : RegIdx),
    EncodedAs (.add rd ra rb) .add 0x00 [rd, ra, rb] ∧
    ∃ t, exec (.add rd ra rb) s = .next t ∧ ResultEffect s t rd (to32 ((s.get ra).toNat + (s.get rb).toNat)) 4

/-- R101 (the wrap: the spec's decision D12). -/
def Obligations.SubWritesTheDifference : Prop :=
  ∀ (s : State) (rd ra rb : RegIdx),
    EncodedAs (.sub rd ra rb) .sub 0x17 [rd, ra, rb] ∧
    ∃ t, exec (.sub rd ra rb) s = .next t ∧
      ResultEffect s t rd (to32 (((s.get ra).toNat : Int) - (s.get rb).toNat)) 4

/-- R102: bit by bit. -/
def Obligations.AndWritesTheBitwiseAnd : Prop :=
  ∀ (s : State) (rd ra rb : RegIdx),
    EncodedAs (.and rd ra rb) .and 0x01 [rd, ra, rb] ∧
    ∃ t v, exec (.and rd ra rb) s = .next t ∧ ResultEffect s t rd v 4 ∧
      ∀ k < 32, v.getLsbD k = ((s.get ra).getLsbD k && (s.get rb).getLsbD k)

/-- R103: bit by bit. -/
def Obligations.OrWritesTheBitwiseOr : Prop :=
  ∀ (s : State) (rd ra rb : RegIdx),
    EncodedAs (.or rd ra rb) .or 0x10 [rd, ra, rb] ∧
    ∃ t v, exec (.or rd ra rb) s = .next t ∧ ResultEffect s t rd v 4 ∧
      ∀ k < 32, v.getLsbD k = ((s.get ra).getLsbD k || (s.get rb).getLsbD k)

/-- R104: all 32 bits inverted, 0xFFFFFFFF - x[ra]. -/
def Obligations.NotWritesTheComplement : Prop :=
  ∀ (s : State) (rd ra : RegIdx),
    EncodedAs (.not rd ra) .not 0x0F [rd, ra] ∧
    ∃ t, exec (.not rd ra) s = .next t ∧ ResultEffect s t rd (to32 (0xFFFFFFFF - ((s.get ra).toNat : Int))) 3

/-- R105. -/
def Obligations.MvCopiesTheRegister : Prop :=
  ∀ (s : State) (rd ra : RegIdx),
    EncodedAs (.mv rd ra) .mv 0x0E [rd, ra] ∧
    ∃ t, exec (.mv rd ra) s = .next t ∧ ResultEffect s t rd (s.get ra) 3

/-- R106 (amounts of 32 and more: the spec's decision D15). -/
def Obligations.ShlMultipliesByAPowerOfTwo : Prop :=
  ∀ (s : State) (rd ra : RegIdx) (amount : Byte),
    EncodedAs (.shl rd ra amount) .shl 0x13 [rd, ra, amount.toNat] ∧
    ∃ t, exec (.shl rd ra amount) s = .next t ∧
      ResultEffect s t rd (to32 ((s.get ra).toNat * 2 ^ (amount.toNat % 32) : Nat)) 4

/-- R107 (amounts of 32 and more: the spec's decision D15). -/
def Obligations.ShrDividesUnsigned : Prop :=
  ∀ (s : State) (rd ra : RegIdx) (amount : Byte),
    EncodedAs (.shr rd ra amount) .shr 0x14 [rd, ra, amount.toNat] ∧
    ∃ t, exec (.shr rd ra amount) s = .next t ∧
      ResultEffect s t rd (to32 ((s.get ra).toNat / 2 ^ (amount.toNat % 32) : Nat)) 4

/-- R108 (amounts of 32 and more: the spec's decision D15): the signed value divided and rounded toward minus infinity. -/
def Obligations.ShraDividesSignedRoundingDown : Prop :=
  ∀ (s : State) (rd ra : RegIdx) (amount : Byte),
    EncodedAs (.shra rd ra amount) .shra 0x15 [rd, ra, amount.toNat] ∧
    ∃ t, exec (.shra rd ra amount) s = .next t ∧
      ResultEffect s t rd (to32 ((signed (s.get ra)).fdiv (2 ^ (amount.toNat % 32)))) 4

/-- R74 (the spec's decision D15): bits 7..5 of the amount byte do not matter. -/
def Obligations.ShiftAmountCountsModulo32 : Prop :=
  ∀ (s : State) (rd ra : RegIdx) (a b : Byte), a.toNat % 32 = b.toNat % 32 →
    exec (.shl rd ra a) s = exec (.shl rd ra b) s ∧ exec (.shr rd ra a) s = exec (.shr rd ra b) s ∧
    exec (.shra rd ra a) s = exec (.shra rd ra b) s

/-! ### Compare, multiply, divide (`41_compare_mul_div.md`) -/

/-- R120 (signed: the spec's decision D13): LESS and EQUAL are written, the other 30 bits of fl and every other register but
pp stay. -/
def Obligations.CmpSetsLessAndEqual : Prop :=
  ∀ (s : State) (rd ra : RegIdx), s.cfg.Valid →
    EncodedAs (.cmp rd ra) .cmp 0x02 [rd, ra] ∧
    ∃ t, exec (.cmp rd ra) s = .next t ∧ t.cfg = s.cfg ∧ SameMemory s t ∧
      (FlagSet t .less ↔ signed (s.get rd) < signed (s.get ra)) ∧ (FlagSet t .equal ↔ s.get rd = s.get ra) ∧
      (∀ k : Fin 32, k ≠ s.cfg.flagMap.bit .less → k ≠ s.cfg.flagMap.bit .equal →
        t.fl.toNat.testBit k.val = s.fl.toNat.testBit k.val) ∧
      t.pp = to32 (s.pp.toNat + 3) ∧
      ∀ r : RegIdx, r ≠ s.cfg.regMap.fl → r ≠ s.cfg.regMap.pp → t.get r = s.get r

/-- R121 (the wrap: the spec's decision D12): rd accumulates, and the factors may be read unsigned or signed alike. -/
def Obligations.MulAccumulates : Prop :=
  ∀ (s : State) (rd ra rb : RegIdx),
    EncodedAs (.mul rd ra rb) .mul 0x0D [rd, ra, rb] ∧
    to32 (signed (s.get rd) + signed (s.get ra) * signed (s.get rb)) =
      to32 ((s.get rd).toNat + (s.get ra).toNat * (s.get rb).toNat) ∧
    ∃ t, exec (.mul rd ra rb) s = .next t ∧
      ResultEffect s t rd (to32 ((s.get rd).toNat + (s.get ra).toNat * (s.get rb).toNat)) 4

/-- R122 (signedness, rounding and order: the spec's decision D14): the quotient and remainder of the signed operands, with
the remainder zero or of the dividend's sign, to rd and rd + 1, then pp; a zero divisor and rd = 17 fault. -/
def Obligations.DivWritesQuotientAndRemainder : Prop :=
  ∀ (s : State) (rd ra rb : RegIdx),
    EncodedAs (.div rd ra rb) .div 0x03 [rd, ra, rb] ∧
    (∀ rd1 : RegIdx, rd1.val = rd.val + 1 → s.get rb ≠ 0 →
      ∃ q r : Int, signed (s.get ra) = q * signed (s.get rb) + r ∧ |r| < |signed (s.get rb)| ∧
        (r ≠ 0 → (r < 0 ↔ signed (s.get ra) < 0)) ∧
        ∃ t, exec (.div rd ra rb) s = .next t ∧ t.cfg = s.cfg ∧ SameMemory s t ∧
          (rd ≠ s.cfg.regMap.pp → t.get rd = to32 q) ∧
          (rd1 ≠ s.cfg.regMap.pp → t.get rd1 = to32 r) ∧
          t.pp = to32 ((if rd1 = s.cfg.regMap.pp then to32 r else if rd = s.cfg.regMap.pp then to32 q else s.pp).toNat + 4) ∧
          ∀ x : RegIdx, x ≠ rd → x ≠ rd1 → x ≠ s.cfg.regMap.pp → t.get x = s.get x) ∧
    (rd.val < 17 → s.get rb = 0 → exec (.div rd ra rb) s = .fault .arithmeticFault) ∧
    (rd.val = 17 → exec (.div rd ra rb) s = .fault .invalidRegister)

/-! ### Load immediate, load, store (`42_li_load_store.md`) -/

/-- R130. -/
def Obligations.LiWritesTheImmediate : Prop :=
  ∀ (s : State) (rd : RegIdx) (imm : Word),
    EncodedAs (.li rd imm) .li 0x0B
      [rd, imm.toNat / 2 ^ 24, imm.toNat / 2 ^ 16 % 256, imm.toNat / 2 ^ 8 % 256, imm.toNat % 256] ∧
    ∃ t, exec (.li rd imm) s = .next t ∧ ResultEffect s t rd imm 6

/-- R131 (zero extension: the spec's decision D16): the three bytes at x[ra], big-endian, or MemoryFault. -/
def Obligations.LoadReadsTheWordAtRa : Prop :=
  ∀ (s : State) (rd ra : RegIdx),
    EncodedAs (.load rd ra) .load 0x0C [rd, ra] ∧
    ((s.get ra).toNat + 3 ≤ s.cfg.memSize →
      ∃ t, exec (.load rd ra) s = .next t ∧ ResultEffect s t rd (to32 (wordAt s (s.get ra).toNat)) 3) ∧
    (s.cfg.memSize < (s.get ra).toNat + 3 → exec (.load rd ra) s = .fault .memoryFault)

/-- R132 (truncation and the quirk: the spec's decisions D16, D19): the low 24 bits of x[ra] at the address x[rd]; then sp + 3
with every other register kept, or, with STORE_ADVANCES_PP, pp + 3 with every other register kept; or MemoryFault. -/
def Obligations.StoreWritesTheWordAtRd : Prop :=
  ∀ (s : State) (rd ra : RegIdx),
    EncodedAs (.store rd ra) .store 0x16 [rd, ra] ∧
    ((s.get rd).toNat + 3 ≤ s.cfg.memSize →
      ∃ t, exec (.store rd ra) s = .next t ∧ t.cfg = s.cfg ∧ StoredAt s t (s.get rd).toNat (s.get ra) ∧
        (s.cfg.storeAdvancesPp = true →
          t.pp = to32 (s.pp.toNat + 3) ∧ ∀ r : RegIdx, r ≠ s.cfg.regMap.pp → t.get r = s.get r) ∧
        (s.cfg.storeAdvancesPp = false →
          t.sp = to32 (s.sp.toNat + 3) ∧ ∀ r : RegIdx, r ≠ s.cfg.regMap.sp → t.get r = s.get r)) ∧
    (s.cfg.memSize < (s.get rd).toNat + 3 → exec (.store rd ra) s = .fault .memoryFault)

/-- The property of VICA section 8 that R133 repeats: a load at the address a store wrote reads the low 24 bits of the stored
value; `u` is any state with the store's memory, since with the quirk the driver has to place pp at the load. -/
def Obligations.LoadAfterStoreReadsTheLow24Bits : Prop :=
  ∀ (s : State) (rd ra rd2 ra2 : RegIdx), (s.get rd).toNat + 3 ≤ s.cfg.memSize →
    ∃ t, exec (.store rd ra) s = .next t ∧
      ∀ u : State, u.cfg = t.cfg → SameMemory t u → u.get ra2 = s.get rd →
        ∃ w, exec (.load rd2 ra2) u = .next w ∧ ResultEffect u w rd2 (to32 ((s.get ra).toNat % 2 ^ 24 : Nat)) 3

/-- R226, R59 (derived by the spec): with the quirk, a store that leaves its own window alone is fetched again by the next
step, at the same pp, with sp 3 higher. -/
def Obligations.StoreWithTheQuirkIsFetchedAgain : Prop :=
  ∀ (s : State) (rd ra : RegIdx), s.cfg.Valid → s.cfg.storeAdvancesPp = false → s.fetchInstr = .ok (.store rd ra) →
    (s.get rd).toNat + 3 ≤ s.cfg.memSize →
    ((s.get rd).toNat + 3 ≤ s.pp.toNat ∨ s.pp.toNat + 6 ≤ (s.get rd).toNat) →
    ∃ t, step s = .next t ∧ t.pp = s.pp ∧ t.sp = to32 (s.sp.toNat + 3) ∧ t.fetchInstr = .ok (.store rd ra)

/-! ### The stack (`43_stack.md`) -/

/-- R140 (the spec's decisions D10, D18): sp - 4, then the low 24 bits of rd (of the new sp, where rd is SP) at the new sp,
then pp + 2; or MemoryFault. -/
def Obligations.PushWritesBelowSp : Prop :=
  ∀ (s : State) (rd : RegIdx), s.cfg.Valid →
    EncodedAs (.push rd) .push 0x12 [rd] ∧
    ((to32 ((s.sp.toNat : Int) - 4)).toNat + 3 ≤ s.cfg.memSize →
      ∃ t, exec (.push rd) s = .next t ∧ t.cfg = s.cfg ∧ t.sp = to32 ((s.sp.toNat : Int) - 4) ∧
        StoredAt s t (to32 ((s.sp.toNat : Int) - 4)).toNat
          (if rd = s.cfg.regMap.sp then to32 ((s.sp.toNat : Int) - 4) else s.get rd) ∧
        t.pp = to32 (s.pp.toNat + 2) ∧
        ∀ r : RegIdx, r ≠ s.cfg.regMap.sp → r ≠ s.cfg.regMap.pp → t.get r = s.get r) ∧
    (s.cfg.memSize < (to32 ((s.sp.toNat : Int) - 4)).toNat + 3 → exec (.push rd) s = .fault .memoryFault)

/-- R141 (the spec's decisions D16, D17): the word at sp to rd, then sp + 4, then pp + 2, each an increment of what the
register then holds; or MemoryFault. -/
def Obligations.PopReadsAtSp : Prop :=
  ∀ (s : State) (rd : RegIdx), s.cfg.Valid →
    EncodedAs (.pop rd) .pop 0x11 [rd] ∧
    (s.sp.toNat + 3 ≤ s.cfg.memSize →
      ∃ t, exec (.pop rd) s = .next t ∧ t.cfg = s.cfg ∧ SameMemory s t ∧
        (rd ≠ s.cfg.regMap.sp → rd ≠ s.cfg.regMap.pp → t.get rd = to32 (wordAt s s.sp.toNat)) ∧
        t.sp = to32 ((if rd = s.cfg.regMap.sp then to32 (wordAt s s.sp.toNat) else s.sp).toNat + 4) ∧
        t.pp = to32 ((if rd = s.cfg.regMap.pp then to32 (wordAt s s.sp.toNat) else s.pp).toNat + 2) ∧
        ∀ r : RegIdx, r ≠ rd → r ≠ s.cfg.regMap.sp → r ≠ s.cfg.regMap.pp → t.get r = s.get r) ∧
    (s.cfg.memSize < s.sp.toNat + 3 → exec (.pop rd) s = .fault .memoryFault)

/-- R142: a push and then a pop restore sp and bring the low 24 bits of the pushed value to the popped register, for every
pair of registers (pushing SP pushes the new sp; popping SP or PP is incremented once more). -/
def Obligations.PopAfterPushRestoresSp : Prop :=
  ∀ (s : State) (rd rd2 : RegIdx), s.cfg.Valid → (to32 ((s.sp.toNat : Int) - 4)).toNat + 3 ≤ s.cfg.memSize →
    ∃ t u, exec (.push rd) s = .next t ∧ exec (.pop rd2) t = .next u ∧
      ∃ v : Word, v = (if rd = s.cfg.regMap.sp then to32 ((s.sp.toNat : Int) - 4) else s.get rd) ∧
        (rd2 ≠ s.cfg.regMap.sp → u.sp = s.sp) ∧
        (rd2 = s.cfg.regMap.sp → u.sp = to32 ((v.toNat % 2 ^ 24 : Nat) + 4)) ∧
        (rd2 ≠ s.cfg.regMap.pp → u.pp = to32 (s.pp.toNat + 4)) ∧
        (rd2 = s.cfg.regMap.pp → u.pp = to32 ((v.toNat % 2 ^ 24 : Nat) + 2)) ∧
        (rd2 ≠ s.cfg.regMap.sp → rd2 ≠ s.cfg.regMap.pp → u.get rd2 = to32 (v.toNat % 2 ^ 24 : Nat))

/-- R59 (derived by the spec): three bytes pushed where the next step fetches are what it fetches, so a pushed encoding of a
3-byte instruction is decoded as that instruction. -/
def Obligations.PushedInstructionIsFetchedNext : Prop :=
  ∀ (s t : State) (rd : RegIdx) (i : Instr) (b0 b1 b2 : Byte), s.cfg.Valid → rd ≠ s.cfg.regMap.sp →
    i.wellFormed = true → encode s.cfg.opcodeMap i = [b0, b1, b2] →
    (s.get rd).toNat % 2 ^ 24 = b0.toNat * 65536 + b1.toNat * 256 + b2.toNat →
    exec (.push rd) s = .next t → t.pp = t.sp → t.pp.toNat + 6 ≤ s.cfg.memSize → step t = exec i t

/-! ### Jumps (`44_jumps.md`) -/

/-- R150: pp takes the register, and a jump through pp itself leaves the whole state as it was. -/
def Obligations.JmpTakesTheTarget : Prop :=
  ∀ (s : State) (rd : RegIdx),
    EncodedAs (.jmp rd) .jmp 0x09 [rd] ∧
    (∃ t, exec (.jmp rd) s = .next t ∧ JumpEffect s t True rd) ∧
    exec (.jmp s.cfg.regMap.pp) s = .next s

/-- R151. -/
def Obligations.JeqJumpsWhenEqualIsSet : Prop :=
  ∀ (s : State) (rd : RegIdx),
    EncodedAs (.jeq rd) .jeq 0x04 [rd] ∧
    ∃ t, exec (.jeq rd) s = .next t ∧ JumpEffect s t (FlagSet s .equal) rd

/-- R152. -/
def Obligations.JnqJumpsWhenEqualIsClear : Prop :=
  ∀ (s : State) (rd : RegIdx),
    EncodedAs (.jnq rd) .jnq 0x0A [rd] ∧
    ∃ t, exec (.jnq rd) s = .next t ∧ JumpEffect s t (¬ FlagSet s .equal) rd

/-- R153. -/
def Obligations.JltJumpsWhenLessIsSet : Prop :=
  ∀ (s : State) (rd : RegIdx),
    EncodedAs (.jlt rd) .jlt 0x08 [rd] ∧
    ∃ t, exec (.jlt rd) s = .next t ∧ JumpEffect s t (FlagSet s .less) rd

/-- R154. -/
def Obligations.JgeJumpsWhenLessIsClear : Prop :=
  ∀ (s : State) (rd : RegIdx),
    EncodedAs (.jge rd) .jge 0x05 [rd] ∧
    ∃ t, exec (.jge rd) s = .next t ∧ JumpEffect s t (¬ FlagSet s .less) rd

/-- R155. -/
def Obligations.JgtJumpsWhenBothAreClear : Prop :=
  ∀ (s : State) (rd : RegIdx),
    EncodedAs (.jgt rd) .jgt 0x06 [rd] ∧
    ∃ t, exec (.jgt rd) s = .next t ∧ JumpEffect s t (¬ FlagSet s .less ∧ ¬ FlagSet s .equal) rd

/-- R156. -/
def Obligations.JleJumpsWhenEitherIsSet : Prop :=
  ∀ (s : State) (rd : RegIdx),
    EncodedAs (.jle rd) .jle 0x07 [rd] ∧
    ∃ t, exec (.jle rd) s = .next t ∧ JumpEffect s t (FlagSet s .less ∨ FlagSet s .equal) rd

/-- R157, R120 (derived by the spec): a cmp and the six jumps behind it decide the signed order of the two operands. -/
def Obligations.JumpsAfterCmpDecideTheSignedOrder : Prop :=
  ∀ (s t : State) (rd ra r : RegIdx), s.cfg.Valid → exec (.cmp rd ra) s = .next t →
    (∃ u, exec (.jeq r) t = .next u ∧ JumpEffect t u (s.get rd = s.get ra) r) ∧
    (∃ u, exec (.jnq r) t = .next u ∧ JumpEffect t u (s.get rd ≠ s.get ra) r) ∧
    (∃ u, exec (.jlt r) t = .next u ∧ JumpEffect t u (signed (s.get rd) < signed (s.get ra)) r) ∧
    (∃ u, exec (.jge r) t = .next u ∧ JumpEffect t u (signed (s.get ra) ≤ signed (s.get rd)) r) ∧
    (∃ u, exec (.jgt r) t = .next u ∧ JumpEffect t u (signed (s.get ra) < signed (s.get rd)) r) ∧
    (∃ u, exec (.jle r) t = .next u ∧ JumpEffect t u (signed (s.get rd) ≤ signed (s.get ra)) r)

/-! ### Rules of the whole machine -/

/-- R14, R17, R19, R22: a register changes only as a named destination, or as pp, as sp by push, pop and the quirk's store, or
as fl by cmp. -/
def Obligations.RegistersChangeOnlyAsDestinations : Prop :=
  ∀ (s t : State) (i : Instr) (r : RegIdx), exec i s = .next t →
    r.val ∉ destinations i → ¬ implicitWrites s.cfg i r → t.get r = s.get r

/-- R23: the five reserved flags have no producer: no instruction changes one of them unless it writes fl as its
destination. -/
def Obligations.ReservedFlagsHaveNoProducer : Prop :=
  ∀ (s t : State) (i : Instr) (f : Flag), s.cfg.Valid → exec i s = .next t →
    f ∈ [.overflow, .ciae, .cibe, .eiae, .eibe] → s.cfg.regMap.fl.val ∉ destinations i →
    (FlagSet t f ↔ FlagSet s f)

/-- R48, R51: a byte of memory changes only under a store or a push, and then only in its three bytes; every other instruction
leaves all of memory. -/
def Obligations.MemoryChangesOnlyUnderStoreAndPush : Prop :=
  ∀ (s t : State) (i : Instr) (x : Nat), exec i s = .next t → Memory.read t.mem x ≠ Memory.read s.mem x →
    (i.mnemonic = .store ∨ i.mnemonic = .push) ∧ ∃ a, dataAddress s i = some a ∧ a ≤ x ∧ x < a + 3

/-- The state after reset satisfies the machine's invariant, for all valid parameters and for the reference ones (R30,
R27). -/
def Obligations.ResetSatisfiesTheInvariant : Prop :=
  State.reset.Inv ∧ ∀ c : Config, c.Valid → (State.resetWith c).Inv

/-- R27, R29: every step keeps the invariant (valid parameters, canonical memory, no byte outside 0..MEMSIZE-1) and the
parameters themselves. The canonical form of memory is the model's own (log entry 5). -/
def Obligations.EveryStepKeepsTheInvariant : Prop :=
  ∀ s t : State, s.Inv → step s = .next t → t.Inv ∧ t.cfg = s.cfg

/-! ### Reset, image load, inspection -/

/-- R221, R220, R30: the complete reset state for all valid parameters. -/
def Obligations.ResetStateIsComplete : Prop :=
  ∀ c : Config, c.Valid → ∃ s, construct c = some s ∧ s.cfg = c ∧
    (∀ r : RegIdx, r ≠ c.regMap.sp → s.get r = 0) ∧ (s.get c.regMap.sp).toNat = c.memSize - 4 ∧
    (∀ a : Nat, Memory.read s.mem a = 0) ∧ s.pp = 0 ∧ s.fl = 0

/-- R5 (the spec's decision D1): construction with a MEMSIZE outside 4..2^32 is refused, and inside it is not, when the other
parameters are what R6 to R8 ask (the reference ones are). -/
def Obligations.ConstructionRefusesMemoryOutsideTheBounds : Prop :=
  (∀ c : Config, c.memSize < 4 ∨ 2 ^ 32 < c.memSize → construct c = none) ∧
  ∀ n : Nat, 4 ≤ n → n ≤ 2 ^ 32 →
    construct { Config.reference with memSize := n } = some (State.resetWith { Config.reference with memSize := n })

/-- R173 (the spec's decision D24): image byte k goes to address k, nothing else changes, and an image longer than memory is
refused. -/
def Obligations.ImageLoadWritesTheImageAtZero : Prop :=
  ∀ (s : State) (img : List Byte),
    (img.length ≤ s.cfg.memSize →
      ∃ t, s.loadImage img = .ok t ∧ t.cfg = s.cfg ∧ (∀ r, t.get r = s.get r) ∧
        (∀ (k : Nat) (h : k < img.length), Memory.read t.mem k = img[k]) ∧
        ∀ a : Nat, img.length ≤ a → Memory.read t.mem a = Memory.read s.mem a) ∧
    (s.cfg.memSize < img.length → s.loadImage img = .error .imageTooLong)

/-- R222: after reset and image load the first step fetches at pp = 0 with sp = MEMSIZE - 4 and fl = 0. -/
def Obligations.FirstStepStartsAtZero : Prop :=
  ∀ (c : Config) (img : List Byte), c.Valid → img.length ≤ c.memSize →
    ∃ s t, construct c = some s ∧ s.loadImage img = .ok t ∧
      t.pp = 0 ∧ t.sp.toNat = c.memSize - 4 ∧ t.fl = 0 ∧ ∀ r, t.get r = s.get r

/-- R178, R7, R31: the register list is the 18 pairs of name and value in index order; pp, sp and fl are named so (under a
REG_MAP other than the reference one this is the model's inference, log entry 12), and the other 15 indices, in order, have
the 15 names of REG_MAP, which in the reference instantiation are r0 to r14. The memory contents are the MEMSIZE bytes in
address order. -/
def Obligations.InspectionShowsAllRegistersAndMemory : Prop :=
  (List.finRange 18).map (regName RegMap.reference) =
    ["r0", "r1", "r2", "r3", "r4", "r5", "r6", "r7", "r8", "r9", "r10", "r11", "r12", "r13", "r14", "pp", "sp", "fl"] ∧
  ∀ s : State,
    s.registerList.length = 18 ∧
    (∀ r : RegIdx, s.registerList[r.val]? = some (regName s.cfg.regMap r, s.get r)) ∧
    s.memoryContents.length = s.cfg.memSize ∧
    (∀ a : Nat, a < s.cfg.memSize → s.memoryContents[a]? = some (Memory.read s.mem a)) ∧
    (s.cfg.Valid →
      regName s.cfg.regMap s.cfg.regMap.pp = "pp" ∧ regName s.cfg.regMap s.cfg.regMap.sp = "sp" ∧
      regName s.cfg.regMap s.cfg.regMap.fl = "fl" ∧
      ((List.finRange 18).filter (fun r => r ≠ s.cfg.regMap.pp ∧ r ≠ s.cfg.regMap.sp ∧ r ≠ s.cfg.regMap.fl)).map
        (regName s.cfg.regMap) = s.cfg.regMap.gprNames.toList)

/-- R83 (derived by the spec): under the reference OPCODE_MAP a window of zeros is `add r0, r0, r0`: r0 is doubled and pp
advances by 4. -/
def Obligations.ZeroedMemoryRunsAdd : Prop :=
  ∀ s : State, s.cfg.opcodeMap = OpcodeMap.reference →
    s.cfg.regMap.pp = 15 → s.cfg.regMap.sp = 16 → s.cfg.regMap.fl = 17 → s.pp.toNat + 6 ≤ s.cfg.memSize → (∀ k < 6, windowByte s k = 0) →
    ∃ t, step s = .next t ∧ ResultEffect s t 0 (to32 (2 * (s.get 0).toNat)) 4

/-- R5 to R8: construction succeeds exactly for the parameters these rules admit, the maps of R6 to R8 at every admitted
value. That it is refused where a map is not injective is the model's choice (log entry 14); R5 says so of MEMSIZE. -/
def Obligations.ConstructionSucceedsExactlyForAdmittedParameters : Prop :=
  ∀ c : Config,
    construct c = some (State.resetWith c) ∧ 4 ≤ c.memSize ∧ c.memSize ≤ 2 ^ 32 ∧
      (∀ m n : Mnemonic, c.opcodeMap.code m = c.opcodeMap.code n → m = n) ∧
      c.regMap.pp ≠ c.regMap.sp ∧ c.regMap.pp ≠ c.regMap.fl ∧ c.regMap.sp ≠ c.regMap.fl ∧
      (∀ f g : Flag, c.flagMap.bit f = c.flagMap.bit g → f = g) ∨
    construct c = none ∧
      (c.memSize < 4 ∨ 2 ^ 32 < c.memSize ∨
      (∃ m n : Mnemonic, m ≠ n ∧ c.opcodeMap.code m = c.opcodeMap.code n) ∨
      c.regMap.pp = c.regMap.sp ∨ c.regMap.pp = c.regMap.fl ∨ c.regMap.sp = c.regMap.fl ∨
      ∃ f g : Flag, f ≠ g ∧ c.flagMap.bit f = c.flagMap.bit g)
end

