-- ==== Sys2Proof/Laws/Decode.lean ====
section
/-! SUPPORT. The small laws of decoding and encoding: the opcode lookup, the index check, and taking fields apart and putting
them together. The round trips themselves are statements for the provers. -/

namespace Sys2Proof

/-! ### Lists of mnemonics and flags -/

theorem Mnemonic.mem_all (m : Mnemonic) : m ∈ Mnemonic.all := by cases m <;> decide

theorem Flag.mem_all (f : Flag) : f ∈ Flag.all := by cases f <;> decide

/-- A list without repeats under a function: the function is injective on it. -/
theorem inj_of_nodup_map {α β : Type} {f : α → β} {l : List α} (h : (l.map f).Nodup) {a b : α} (ha : a ∈ l) (hb : b ∈ l)
    (e : f a = f b) : a = b := List.inj_on_of_nodup_map h ha hb e

/-- OPCODE_MAP is injective in valid parameters (R6). -/
theorem Config.Valid.code_inj {c : Config} (h : c.Valid) {m n : Mnemonic}
    (e : c.opcodeMap.code m = c.opcodeMap.code n) : m = n :=
  inj_of_nodup_map h.2.1 (Mnemonic.mem_all m) (Mnemonic.mem_all n) e

/-- FLAG_BIT is injective in valid parameters (R8). -/
theorem Config.Valid.bit_inj {c : Config} (h : c.Valid) {f g : Flag} (e : c.flagMap.bit f = c.flagMap.bit g) : f = g :=
  inj_of_nodup_map h.2.2.2 (Flag.mem_all f) (Flag.mem_all g) e

theorem Config.Valid.pp_ne_sp {c : Config} (h : c.Valid) : c.regMap.pp ≠ c.regMap.sp := by
  have := h.2.2.1; simp at this; tauto

theorem Config.Valid.pp_ne_fl {c : Config} (h : c.Valid) : c.regMap.pp ≠ c.regMap.fl := by
  have := h.2.2.1; simp at this; tauto

theorem Config.Valid.sp_ne_fl {c : Config} (h : c.Valid) : c.regMap.sp ≠ c.regMap.fl := by
  have := h.2.2.1; simp at this; tauto

/-! ### The opcode lookup -/

/-- The mnemonic selected has the byte as its code. -/
theorem code_of_selectMnemonic {o : OpcodeMap} {b : Byte} {m : Mnemonic} (h : selectMnemonic o b = some m) :
    o.code m = b := by
  have := List.find?_some h
  simpa using this

/-- The code of a mnemonic selects it, when OPCODE_MAP is injective (R6, R77). -/
theorem selectMnemonic_code {c : Config} (h : c.Valid) (m : Mnemonic) :
    selectMnemonic c.opcodeMap (c.opcodeMap.code m) = some m := by
  unfold selectMnemonic
  cases hs : List.find? (fun m' => c.opcodeMap.code m' == c.opcodeMap.code m) Mnemonic.all with
  | none =>
    have := List.find?_eq_none.mp hs m (Mnemonic.mem_all m)
    simp at this
  | some n => rw [h.code_inj (code_of_selectMnemonic hs)]

/-- No mnemonic is selected exactly when the byte is the code of none (R79). -/
theorem selectMnemonic_eq_none {o : OpcodeMap} {b : Byte} :
    selectMnemonic o b = none ↔ ∀ m, o.code m ≠ b := by
  simp only [selectMnemonic, List.find?_eq_none, beq_iff_eq]
  exact ⟨fun h m => h m (Mnemonic.mem_all m), fun h m _ => h m⟩

/-! ### The index check -/

theorem checkReg_of_lt {i : Nat} (h : i < 18) : checkReg i = .ok ⟨i, h⟩ := by simp [checkReg, h]

theorem checkReg_of_ge {i : Nat} (h : 18 ≤ i) : checkReg i = .error (.invalidRegister i) := by
  simp [checkReg, show ¬ i < 18 by omega]

theorem checkReg_eq_ok {i : Nat} {r : RegIdx} : checkReg i = .ok r ↔ i = r.val := by
  constructor
  · intro h
    unfold checkReg at h
    split at h
    · cases h; rfl
    · cases h
  · intro h
    have := r.isLt
    subst h
    simp [checkReg]

@[simp] theorem checkReg_val (r : RegIdx) : checkReg r.val = .ok r := checkReg_eq_ok.mpr rfl

/-- A rejected index is 18 or more, and the rejection carries it. -/
theorem checkReg_eq_error {i : Nat} {e : DecodeError} (h : checkReg i = .error e) : e = .invalidRegister i ∧ 18 ≤ i := by
  unfold checkReg at h
  split at h
  · cases h
  · cases h; exact ⟨rfl, by omega⟩

@[simp] theorem toNat_regByte (r : RegIdx) : (regByte r).toNat = r.val := by
  have := r.isLt
  simp [regByte]; omega

theorem checkReg_regByte (r : RegIdx) : checkReg (regByte r).toNat = .ok r := by simp

/-- The byte of the index a byte holds is that byte. -/
theorem regByte_of_toNat {b : Byte} {r : RegIdx} (h : b.toNat = r.val) : regByte r = b := by
  simp [regByte, ← h]

/-! ### The formats: what decoding answers, said once for each (R76, R78) -/

section Formats

variable {w : Window} {i : Instr} {e : DecodeError} {mk1 : RegIdx → Instr} {mk2 : RegIdx → RegIdx → Instr}
  {mk3 : RegIdx → RegIdx → RegIdx → Instr} {mkS : RegIdx → RegIdx → Byte → Instr} {mkI : RegIdx → Word → Instr}

theorem decodeF2_ok : decodeF2 mk1 w = .ok i → ∃ rd : RegIdx, w.b1.toNat = rd.val ∧ i = mk1 rd := by
  unfold decodeF2 rdOf
  split
  · intro h; cases h
  · next rd h1 => intro h; cases h; exact ⟨rd, checkReg_eq_ok.mp h1, rfl⟩

theorem decodeF2_error : decodeF2 mk1 w = .error e → ∃ k ∈ [w.b1.toNat], e = .invalidRegister k ∧ 18 ≤ k := by
  unfold decodeF2 rdOf
  split
  · next h1 => intro h; cases h; exact ⟨_, by simp, checkReg_eq_error h1⟩
  · intro h; cases h

theorem decodeF3_ok : decodeF3 mk2 w = .ok i →
    ∃ rd ra : RegIdx, w.b1.toNat = rd.val ∧ w.b2.toNat = ra.val ∧ i = mk2 rd ra := by
  unfold decodeF3 rdOf raOf
  split
  · intro h; cases h
  · intro h; cases h
  · next rd ra h1 h2 => intro h; cases h; exact ⟨rd, ra, checkReg_eq_ok.mp h1, checkReg_eq_ok.mp h2, rfl⟩

theorem decodeF3_error : decodeF3 mk2 w = .error e →
    ∃ k ∈ [w.b1.toNat, w.b2.toNat], e = .invalidRegister k ∧ 18 ≤ k := by
  unfold decodeF3 rdOf raOf
  split
  · next h1 => intro h; cases h; exact ⟨_, by simp, checkReg_eq_error h1⟩
  · next h2 => intro h; cases h; exact ⟨_, by simp, checkReg_eq_error h2⟩
  · intro h; cases h

theorem decodeF4R_ok : decodeF4R mk3 w = .ok i →
    ∃ rd ra rb : RegIdx, w.b1.toNat = rd.val ∧ w.b2.toNat = ra.val ∧ w.b3.toNat = rb.val ∧ i = mk3 rd ra rb := by
  unfold decodeF4R rdOf raOf rbOf
  split
  · intro h; cases h
  · intro h; cases h
  · intro h; cases h
  · next rd ra rb h1 h2 h3 =>
    intro h; cases h
    exact ⟨rd, ra, rb, checkReg_eq_ok.mp h1, checkReg_eq_ok.mp h2, checkReg_eq_ok.mp h3, rfl⟩

theorem decodeF4R_error : decodeF4R mk3 w = .error e →
    ∃ k ∈ [w.b1.toNat, w.b2.toNat, w.b3.toNat], e = .invalidRegister k ∧ 18 ≤ k := by
  unfold decodeF4R rdOf raOf rbOf
  split
  · next h1 => intro h; cases h; exact ⟨_, by simp, checkReg_eq_error h1⟩
  · next h2 => intro h; cases h; exact ⟨_, by simp, checkReg_eq_error h2⟩
  · next h3 => intro h; cases h; exact ⟨_, by simp, checkReg_eq_error h3⟩
  · intro h; cases h

theorem decodeDiv_ok : decodeDiv w = .ok i → ∃ rd ra rb : RegIdx, rd.val + 1 < 18 ∧
    w.b1.toNat = rd.val ∧ w.b2.toNat = ra.val ∧ w.b3.toNat = rb.val ∧ i = .div rd ra rb := by
  unfold decodeDiv rdOf
  split
  · intro h; cases h
  · next r h1 =>
    intro h
    obtain ⟨rd, ra, rb, h2, h3⟩ := decodeF4R_ok h
    have := checkReg_eq_ok.mp h1
    exact ⟨rd, ra, rb, by omega, h2, h3⟩

theorem decodeDiv_error : decodeDiv w = .error e →
    ∃ k ∈ [w.b1.toNat, w.b1.toNat + 1, w.b2.toNat, w.b3.toNat], e = .invalidRegister k ∧ 18 ≤ k := by
  unfold decodeDiv rdOf
  split
  · next h1 => intro h; cases h; exact ⟨_, by simp, checkReg_eq_error h1⟩
  · intro h
    obtain ⟨k, hk, h⟩ := decodeF4R_error h
    simp only [List.mem_cons, List.not_mem_nil, or_false] at hk
    exact ⟨k, by simp; tauto, h⟩

theorem decodeF4S_ok : decodeF4S mkS w = .ok i →
    ∃ rd ra : RegIdx, w.b1.toNat = rd.val ∧ w.b2.toNat = ra.val ∧ i = mkS rd ra w.b3 := by
  unfold decodeF4S rdOf raOf rbOf
  split
  · intro h; cases h
  · intro h; cases h
  · next rd ra h1 h2 => intro h; cases h; exact ⟨rd, ra, checkReg_eq_ok.mp h1, checkReg_eq_ok.mp h2, rfl⟩

theorem decodeF4S_error : decodeF4S mkS w = .error e →
    ∃ k ∈ [w.b1.toNat, w.b2.toNat], e = .invalidRegister k ∧ 18 ≤ k := by
  unfold decodeF4S rdOf raOf
  split
  · next h1 => intro h; cases h; exact ⟨_, by simp, checkReg_eq_error h1⟩
  · next h2 => intro h; cases h; exact ⟨_, by simp, checkReg_eq_error h2⟩
  · intro h; cases h

theorem decodeF6I_ok : decodeF6I mkI w = .ok i → ∃ rd : RegIdx, w.b1.toNat = rd.val ∧ i = mkI rd (imm32Of w) := by
  unfold decodeF6I rdOf
  split
  · intro h; cases h
  · next rd h1 => intro h; cases h; exact ⟨rd, checkReg_eq_ok.mp h1, rfl⟩

theorem decodeF6I_error : decodeF6I mkI w = .error e → ∃ k ∈ [w.b1.toNat], e = .invalidRegister k ∧ 18 ≤ k := by
  unfold decodeF6I rdOf
  split
  · next h1 => intro h; cases h; exact ⟨_, by simp, checkReg_eq_error h1⟩
  · intro h; cases h

end Formats

/-- Under an injective OPCODE_MAP a window is decoded as the mnemonic its first byte is the code of. -/
theorem decode_of_code {c : Config} (h : c.Valid) {m : Mnemonic} {w : Window} (hb : c.opcodeMap.code m = w.b0) :
    decode c.opcodeMap w = decodeAs m w := by
  simp [decode, opcodeOf, ← hb, selectMnemonic_code h]

/-! ### The immediate and the shift amount -/

/-- The immediate taken apart into bytes and put together again (R75). -/
theorem word_of_wordBytes (v : Word) :
    (v.extractLsb' 24 8 ++ v.extractLsb' 16 8 ++ v.extractLsb' 8 8 ++ v.extractLsb' 0 8 : Word) = v := by
  apply BitVec.eq_of_getLsbD_eq
  intro i hi
  simp only [BitVec.getLsbD_append, BitVec.getLsbD_extractLsb']
  split
  · simp [*]
  · split
    · have h : 8 + (i - 8) = i := by omega
      simp [*]
    · split
      · have h : 16 + (i - 8 - 8) = i := by omega
        simp [*]
      · have h : 24 + (i - 8 - 8 - 8) = i := by omega
        have h' : i - 8 - 8 - 8 < 8 := by omega
        simp [*]

/-- Four bytes put together and taken apart again (R75). -/
theorem wordBytes_append (b2 b3 b4 b5 : Byte) : wordBytes (b2 ++ b3 ++ b4 ++ b5) = [b2, b3, b4, b5] := by
  have e (n : Nat) (b : Byte) (h : ∀ i, i < 8 → (b2 ++ b3 ++ b4 ++ b5).getLsbD (n + i) = b.getLsbD i) :
      (b2 ++ b3 ++ b4 ++ b5).extractLsb' n 8 = b := by
    apply BitVec.eq_of_getLsbD_eq
    intro i hi
    simp only [BitVec.getLsbD_extractLsb', hi, decide_true, Bool.true_and]
    exact h i hi
  simp only [wordBytes, List.cons.injEq, and_true]
  refine ⟨e 24 _ fun i hi => ?_, e 16 _ fun i hi => ?_, e 8 _ fun i hi => ?_, e 0 _ fun i hi => ?_⟩ <;>
    simp only [BitVec.getLsbD_append]
  · rw [if_neg (by omega), if_neg (by omega), if_neg (by omega)]; congr 1; omega
  · rw [if_neg (by omega), if_neg (by omega), if_pos (by omega)]; congr 1; omega
  · rw [if_neg (by omega), if_pos (by omega)]; congr 1; omega
  · rw [if_pos (by omega)]; congr 1; omega

/-- The shift amount is the amount byte modulo 32 (R74). -/
theorem shamtOf_eq (b : Byte) : shamtOf b = b.toNat % 32 := by
  simp [shamtOf, BitVec.extractLsb'_toNat]

end Sys2Proof
end

