-- ==== Sys2Proof/Laws/Driver.lean ====
section
/-! SUPPORT. The general registers under REG_MAP and their names. -/

namespace Sys2Proof.Machine

variable {r : RegMap} {i : RegIdx}

theorem mem_generalRegs : i ∈ generalRegs r ↔ i ≠ r.pp ∧ i ≠ r.sp ∧ i ≠ r.fl := by
  simp [generalRegs]

theorem nodup_generalRegs : (generalRegs r).Nodup := (List.nodup_finRange 18).filter _

/-- With three distinct special indices 15 are left (R11). -/
theorem length_generalRegs (h : [r.pp, r.sp, r.fl].Nodup) : (generalRegs r).length = 15 := by
  have hs : (generalRegs r).toFinset = Finset.univ \ [r.pp, r.sp, r.fl].toFinset := by
    ext i; simp [mem_generalRegs]
  rw [← List.toFinset_card_of_nodup nodup_generalRegs, hs, Finset.card_sdiff_of_subset (Finset.subset_univ _),
    List.toFinset_card_of_nodup h]
  rfl

/-- A general register's name is REG_MAP's, by its place among the general registers (R7). -/
theorem regName_of_mem (h : i ∈ generalRegs r) : regName r i = r.gprNames.toList.getD ((generalRegs r).idxOf i) "" := by
  obtain ⟨h1, h2, h3⟩ := mem_generalRegs.mp h
  simp only [regName, h1, h2, h3, if_false]

end Sys2Proof.Machine
end

