-- ==== Sys2Proof/Laws/Memory.lean ====
section
/-! SUPPORT. The laws of memory: what a read gives after a write, and that every operation keeps the canonical form. The
read-after-write laws hold of every list, canonical or not. -/

namespace Sys2Proof.Machine

/-! ### The number a memory word is -/

/-- A memory word is its bytes weighted 65536, 256 and 1 (R131). -/
theorem toNat_append3 (b0 b1 b2 : Byte) :
    (b0 ++ b1 ++ b2 : Word24).toNat = b0.toNat * 65536 + b1.toNat * 256 + b2.toNat := by
  have h1 := b1.isLt
  have h2 := b2.isLt
  rw [BitVec.toNat_append, BitVec.toNat_append, ← Nat.shiftLeft_add_eq_or_of_lt h1, ← Nat.shiftLeft_add_eq_or_of_lt h2]
  simp only [Nat.shiftLeft_eq]
  omega

/-! ### Reading after writing -/

@[simp] theorem Memory.read_nil (a : Nat) : Memory.read [] a = 0 := rfl

theorem Memory.read_erase (m : Memory) (a x : Nat) :
    Memory.read (Memory.erase m a) x = if x = a then 0 else Memory.read m x := by
  induction m with
  | nil => simp [Memory.erase]
  | cons c m ih =>
    obtain ⟨k, b⟩ := c
    by_cases hk : k = a
    · subst hk
      by_cases hx : x = k
      · simpa only [Memory.erase, if_true, hx] using ih
      · simp [Memory.erase, ih, hx, Memory.read, Ne.symm hx]
    · by_cases hx : k = x
      · subst hx; simp [Memory.erase, hk, Memory.read]
      · simp [Memory.erase, hk, Memory.read, hx, ih]

theorem Memory.read_insert (m : Memory) (a x : Nat) (v : Byte) (hx : x ≠ a) :
    Memory.read (Memory.insert m a v) x = Memory.read m x := by
  induction m with
  | nil => simp [Memory.insert, Memory.read, Ne.symm hx, unlistedByte]
  | cons c m ih =>
    obtain ⟨k, b⟩ := c
    by_cases hk : a ≤ k
    · simp [Memory.insert, hk, Memory.read, Ne.symm hx]
    · simp [Memory.insert, hk, Memory.read, ih]

theorem Memory.read_insert_same (m : Memory) (a : Nat) (v : Byte) (h : ∀ c ∈ m, c.1 ≠ a) :
    Memory.read (Memory.insert m a v) a = v := by
  induction m with
  | nil => simp [Memory.insert, Memory.read]
  | cons c m ih =>
    obtain ⟨k, b⟩ := c
    have hk := h (k, b) (by simp)
    by_cases hle : a ≤ k
    · simp [Memory.insert, hle, Memory.read]
    · simp only [Memory.insert, hle, if_false, Memory.read, hk]
      exact ih fun c hc => h c (by simp [hc])

theorem Memory.mem_erase {m : Memory} {a : Nat} {c : Host.Cell} : c ∈ Memory.erase m a → c ∈ m ∧ c.1 ≠ a := by
  induction m with
  | nil => simp [Memory.erase]
  | cons d m ih =>
    obtain ⟨k, b⟩ := d
    by_cases hk : k = a
    · simp only [Memory.erase, hk, if_true]
      intro h
      exact ⟨by simp [(ih h).1], (ih h).2⟩
    · simp only [Memory.erase, hk, if_false, List.mem_cons]
      rintro (rfl | h)
      · exact ⟨by simp, hk⟩
      · exact ⟨.inr (ih h).1, (ih h).2⟩

/-- A read after a write: the byte written at that address, the old byte everywhere else. -/
theorem Memory.read_write (m : Memory) (a x : Nat) (v : Byte) :
    Memory.read (Memory.write m a v) x = if x = a then v else Memory.read m x := by
  by_cases hv : v = unlistedByte
  · simp only [Memory.write, hv, if_true, Memory.read_erase]
    rfl
  · simp only [Memory.write, hv, if_false]
    by_cases hx : x = a
    · subst hx
      simp [Memory.read_insert_same _ x v fun c hc => (Memory.mem_erase hc).2]
    · rw [Memory.read_insert _ a x v hx, Memory.read_erase]
      simp [hx]

/-- A read after a write of several bytes: byte `x - a` inside the range written, the old byte outside it. -/
theorem Memory.read_writeBytes (bs : List Byte) : ∀ (m : Memory) (a x : Nat),
    Memory.read (Memory.writeBytes m a bs) x =
      if a ≤ x ∧ x < a + bs.length then bs.getD (x - a) 0 else Memory.read m x := by
  induction bs with
  | nil => intro m a x; simp [Memory.writeBytes]
  | cons v bs ih =>
    intro m a x
    rw [Memory.writeBytes, ih, Memory.read_write]
    by_cases hx : x = a
    · subst hx; simp
    · by_cases hin : a + 1 ≤ x ∧ x < a + 1 + bs.length
      · have h1 : a ≤ x ∧ x < a + (v :: bs).length := by simp; omega
        have h2 : x - a = (x - (a + 1)) + 1 := by omega
        rw [if_pos hin, if_pos h1, h2]
        simp
      · have h1 : ¬ (a ≤ x ∧ x < a + (v :: bs).length) := by simp; omega
        rw [if_neg hin, if_neg h1, if_neg hx]

@[simp] theorem Memory.length_readBytes (m : Memory) (n : Nat) : ∀ a, (Memory.readBytes m a n).length = n := by
  induction n with
  | zero => intro a; rfl
  | succ n ih => intro a; simp [Memory.readBytes, ih]

/-- Byte `k` of a read of several bytes. -/
theorem Memory.getElem_readBytes (m : Memory) (n : Nat) : ∀ (a k : Nat) (h : k < n),
    (Memory.readBytes m a n)[k]'(by simpa using h) = Memory.read m (a + k) := by
  induction n with
  | zero => intro a k h; omega
  | succ n ih =>
    intro a k h
    cases k with
    | zero => simp [Memory.readBytes]
    | succ k =>
      simp only [Memory.readBytes, List.getElem_cons_succ]
      rw [ih (a + 1) k (by omega)]
      congr 1; omega

theorem Memory.readBytes_three (m : Memory) (a : Nat) :
    Memory.readBytes m a 3 = [Memory.read m a, Memory.read m (a + 1), Memory.read m (a + 2)] := rfl

theorem Memory.readBytes_six (m : Memory) (a : Nat) : Memory.readBytes m a 6 =
    [Memory.read m a, Memory.read m (a + 1), Memory.read m (a + 2), Memory.read m (a + 3), Memory.read m (a + 4),
      Memory.read m (a + 5)] := rfl

/-! ### The canonical form is kept -/

theorem Memory.wfFrom_mono {m : Memory} {lo lo' : Nat} (h : lo ≤ lo') (hw : Memory.wfFrom lo' m = true) :
    Memory.wfFrom lo m = true := by
  cases m with
  | nil => rfl
  | cons c m =>
    obtain ⟨k, b⟩ := c
    simp only [Memory.wfFrom, Bool.and_eq_true, decide_eq_true_eq] at hw ⊢
    exact ⟨⟨by omega, hw.1.2⟩, hw.2⟩

theorem Memory.wfFrom_erase (m : Memory) (a : Nat) : ∀ lo, Memory.wfFrom lo m = true →
    Memory.wfFrom lo (Memory.erase m a) = true := by
  induction m with
  | nil => intro lo h; exact h
  | cons c m ih =>
    obtain ⟨k, b⟩ := c
    intro lo h
    simp only [Memory.wfFrom, Bool.and_eq_true, decide_eq_true_eq] at h
    by_cases hk : k = a
    · simp only [Memory.erase, hk, if_true]
      exact Memory.wfFrom_mono (by omega) (ih _ h.2)
    · simp only [Memory.erase, hk, if_false, Memory.wfFrom, Bool.and_eq_true, decide_eq_true_eq]
      exact ⟨h.1, ih _ h.2⟩

theorem Memory.wfFrom_insert (m : Memory) (a : Nat) (v : Byte) (hv : v ≠ unlistedByte) : ∀ lo, lo ≤ a →
    (∀ c ∈ m, c.1 ≠ a) → Memory.wfFrom lo m = true → Memory.wfFrom lo (Memory.insert m a v) = true := by
  induction m with
  | nil => intro lo hlo _ _; simp [Memory.insert, Memory.wfFrom, hlo, hv]
  | cons c m ih =>
    obtain ⟨k, b⟩ := c
    intro lo hlo hne h
    have hka := hne (k, b) (by simp)
    simp only [Memory.wfFrom, Bool.and_eq_true, decide_eq_true_eq] at h
    by_cases hk : a ≤ k
    · have : a + 1 ≤ k := by simp at hka; omega
      simp [Memory.insert, hk, Memory.wfFrom, hlo, hv, h.1.2, h.2, this]
    · simp only [Memory.insert, hk, if_false, Memory.wfFrom, Bool.and_eq_true, decide_eq_true_eq]
      exact ⟨h.1, ih (k + 1) (by omega) (fun c hc => hne c (by simp [hc])) h.2⟩

/-- A write keeps the canonical form. -/
theorem Memory.wf_write {m : Memory} (a : Nat) (v : Byte) (h : Memory.wf m = true) :
    Memory.wf (Memory.write m a v) = true := by
  have he := Memory.wfFrom_erase m a 0 h
  by_cases hv : v = unlistedByte
  · simpa [Memory.write, hv, Memory.wf] using he
  · simpa [Memory.write, hv, Memory.wf] using
      Memory.wfFrom_insert _ a v hv 0 (Nat.zero_le _) (fun c hc => (Memory.mem_erase hc).2) he

/-- A write of several bytes keeps the canonical form. -/
theorem Memory.wf_writeBytes (bs : List Byte) : ∀ {m : Memory} (a : Nat), Memory.wf m = true →
    Memory.wf (Memory.writeBytes m a bs) = true := by
  induction bs with
  | nil => intro m a h; exact h
  | cons v bs ih => intro m a h; exact ih (a + 1) (Memory.wf_write a v h)

theorem Memory.mem_insert {m : Memory} {a : Nat} {v : Byte} {c : Host.Cell} :
    c ∈ Memory.insert m a v → c = (a, v) ∨ c ∈ m := by
  induction m with
  | nil => simp [Memory.insert]
  | cons d m ih =>
    obtain ⟨k, b⟩ := d
    by_cases hk : a ≤ k
    · simp [Memory.insert, hk]
    · simp only [Memory.insert, hk, if_false, List.mem_cons]
      rintro (h | h)
      · exact .inr (.inl h)
      · exact (ih h).imp id .inr

/-- A write inside memory lists no address outside it. -/
theorem Memory.below_write {m : Memory} {n a : Nat} (v : Byte) (ha : a < n) (h : Memory.below n m = true) :
    Memory.below n (Memory.write m a v) = true := by
  simp only [Memory.below, List.all_eq_true, decide_eq_true_eq] at h ⊢
  intro c hc
  by_cases hv : v = unlistedByte
  · simp only [Memory.write, hv, if_true] at hc
    exact h c (Memory.mem_erase hc).1
  · simp only [Memory.write, hv, if_false] at hc
    rcases Memory.mem_insert hc with rfl | hc
    · exact ha
    · exact h c (Memory.mem_erase hc).1

/-- A write of several bytes inside memory lists no address outside it. -/
theorem Memory.below_writeBytes {n : Nat} (bs : List Byte) : ∀ {m : Memory} {a : Nat}, a + bs.length ≤ n →
    Memory.below n m = true → Memory.below n (Memory.writeBytes m a bs) = true := by
  induction bs with
  | nil => intro m a _ h; exact h
  | cons v bs ih =>
    intro m a hn h
    simp only [List.length_cons] at hn
    exact ih (by omega) (Memory.below_write v (by omega) h)

/-! ### Canonical memories that read alike are equal -/

theorem Memory.read_of_wfFrom {m : Memory} {lo a : Nat} (h : Memory.wfFrom lo m = true) (ha : a < lo) :
    Memory.read m a = unlistedByte := by
  induction m generalizing lo with
  | nil => rfl
  | cons c m ih =>
    obtain ⟨k, b⟩ := c
    simp only [Memory.wfFrom, Bool.and_eq_true, decide_eq_true_eq] at h
    have : k ≠ a := by omega
    simp only [Memory.read, this, if_false]
    exact ih h.2 (by omega)

theorem Memory.ext_read_from {m m' : Memory} {lo : Nat} (h : Memory.wfFrom lo m = true)
    (h' : Memory.wfFrom lo m' = true) (hr : ∀ a, Memory.read m a = Memory.read m' a) : m = m' := by
  induction m generalizing lo m' with
  | nil =>
    cases m' with
    | nil => rfl
    | cons c m' =>
      obtain ⟨k, b⟩ := c
      simp only [Memory.wfFrom, Bool.and_eq_true, decide_eq_true_eq] at h'
      exact absurd (by simpa [Memory.read] using (hr k).symm) h'.1.2
  | cons c m ih =>
    obtain ⟨k, b⟩ := c
    cases m' with
    | nil =>
      simp only [Memory.wfFrom, Bool.and_eq_true, decide_eq_true_eq] at h
      exact absurd (by simpa [Memory.read] using hr k) h.1.2
    | cons c' m' =>
      obtain ⟨k', b'⟩ := c'
      simp only [Memory.wfFrom, Bool.and_eq_true, decide_eq_true_eq] at h h'
      have hk : k = k' := by
        rcases Nat.lt_trichotomy k k' with hlt | heq | hgt
        · have h1 := hr k
          have h2 : k' ≠ k := by omega
          simp only [Memory.read, if_true, h2, if_false] at h1
          exact absurd (h1.trans (Memory.read_of_wfFrom h'.2 (by omega))) h.1.2
        · exact heq
        · have h1 := hr k'
          have h2 : k ≠ k' := by omega
          simp only [Memory.read, if_true, h2, if_false] at h1
          exact absurd (h1.symm.trans (Memory.read_of_wfFrom h.2 (by omega))) h'.1.2
      subst hk
      have hb : b = b' := by simpa [Memory.read] using hr k
      subst hb
      rw [ih h.2 h'.2 fun a => ?_]
      by_cases ha : k = a
      · subst ha
        rw [Memory.read_of_wfFrom h.2 (by omega), Memory.read_of_wfFrom h'.2 (by omega)]
      · simpa [Memory.read, ha] using hr a

/-- Equal memories are equal data: canonical memories that give the same byte at every address are the same list. -/
theorem Memory.ext_read {m m' : Memory} (h : Memory.wf m = true) (h' : Memory.wf m' = true)
    (hr : ∀ a, Memory.read m a = Memory.read m' a) : m = m' := Memory.ext_read_from h h' hr

/-! ### The memory operands -/

/-- A memory write answers the state with its memory written, when its range is in memory, and MemoryFault otherwise. -/
theorem State.memWrite_ok {s t : State} {addr : Nat} {bs : List Byte} (h : s.memWrite addr bs = .ok t) :
    addr + bs.length ≤ s.cfg.memSize ∧ t = s.setMem (Memory.writeBytes s.mem addr bs) := by
  unfold State.memWrite at h
  split at h
  · exact ⟨‹_›, (Except.ok.inj h).symm⟩
  · cases h

/-- The word `load24` reads is the three bytes at the address, most significant first, when they are in memory. -/
theorem State.load24_ok {s : State} {addr : Word} (h : addr.toNat + 3 ≤ s.cfg.memSize) :
    s.load24 addr = .ok (Memory.read s.mem addr.toNat ++ Memory.read s.mem (addr.toNat + 1) ++
      Memory.read s.mem (addr.toNat + 2)) := by
  simp [State.load24, State.memRead, State.inRange, h, Memory.readBytes_three, word24]

theorem State.load24_fault {s : State} {addr : Word} (h : s.cfg.memSize < addr.toNat + 3) :
    s.load24 addr = .error .memoryFault := by
  have : ¬ s.inRange addr.toNat 3 := by simp [State.inRange]; omega
  simp [State.load24, State.memRead, this]

theorem State.store24_ok {s : State} {addr : Word} (v : Word24) (h : addr.toNat + 3 ≤ s.cfg.memSize) :
    s.store24 addr v = .ok (s.setMem (Memory.writeBytes s.mem addr.toNat (bytes24 v))) := by
  simp [State.store24, State.memWrite, State.inRange, bytes24, h]

theorem State.store24_fault {s : State} {addr : Word} (v : Word24) (h : s.cfg.memSize < addr.toNat + 3) :
    s.store24 addr v = .error .memoryFault := by
  have : ¬ s.inRange addr.toNat 3 := by simp [State.inRange]; omega
  simp [State.store24, State.memWrite, bytes24, this]

/-- Taking a 24-bit word apart into bytes and putting it together again. -/
@[simp] theorem word24_bytes24 (v : Word24) : word24 (bytes24 v) = v := by
  simp only [word24, bytes24]
  apply BitVec.eq_of_getLsbD_eq
  intro i hi
  simp only [BitVec.getLsbD_append, BitVec.getLsbD_extractLsb']
  split
  · simp [*]
  · split
    · have h : 8 + (i - 8) = i := by omega
      simp [*]
    · have h : 16 + (i - 8 - 8) = i := by omega
      have h' : i - 8 - 8 < 8 := by omega
      simp [*]

end Sys2Proof.Machine
end

