-- ==== Sys2Proof/Laws/State.lean ====
section
/-! SUPPORT. One small lemma per field per update of State, so that no proof unfolds a record update. -/

namespace Sys2Proof.Machine

variable (s : State) (i j : RegIdx) (v : Word) (n : Nat) (f : Flag) (b : Bool)

/-! ### `State.set` -/

@[simp] theorem State.set_cfg : (s.set i v).cfg = s.cfg := rfl

@[simp] theorem State.set_mem : (s.set i v).mem = s.mem := rfl

/-- Reading a register after a write: the value written at that index, the old value elsewhere. -/
theorem State.get_set : (s.set i v).get j = if j = i then v else s.get j := by
  simp only [State.get, State.set, Fin.getElem_fin, Vector.getElem_set, Fin.ext_iff, eq_comm]

@[simp] theorem State.get_set_same : (s.set i v).get i = v := by simp [State.get_set]

theorem State.get_set_other (h : j ≠ i) : (s.set i v).get j = s.get j := by simp [State.get_set, h]

/-! ### A change of memory alone -/

@[simp] theorem State.setMem_cfg (m : Memory) : (s.setMem m).cfg = s.cfg := rfl

@[simp] theorem State.setMem_mem (m : Memory) : (s.setMem m).mem = m := rfl

@[simp] theorem State.get_setMem (m : Memory) : (s.setMem m).get i = s.get i := rfl

@[simp] theorem State.pp_setMem (m : Memory) : (s.setMem m).pp = s.pp := rfl

@[simp] theorem State.sp_setMem (m : Memory) : (s.setMem m).sp = s.sp := rfl

@[simp] theorem State.fl_setMem (m : Memory) : (s.setMem m).fl = s.fl := rfl

/-! ### `State.setPp`, `State.setSp`, `State.setFl` -/

@[simp] theorem State.setPp_cfg : (s.setPp v).cfg = s.cfg := rfl

@[simp] theorem State.setPp_mem : (s.setPp v).mem = s.mem := rfl

@[simp] theorem State.setSp_cfg : (s.setSp v).cfg = s.cfg := rfl

@[simp] theorem State.setSp_mem : (s.setSp v).mem = s.mem := rfl

@[simp] theorem State.setFl_cfg : (s.setFl v).cfg = s.cfg := rfl

@[simp] theorem State.setFl_mem : (s.setFl v).mem = s.mem := rfl

theorem State.get_setPp : (s.setPp v).get j = if j = s.cfg.regMap.pp then v else s.get j := State.get_set s _ j v

theorem State.get_setSp : (s.setSp v).get j = if j = s.cfg.regMap.sp then v else s.get j := State.get_set s _ j v

theorem State.get_setFl : (s.setFl v).get j = if j = s.cfg.regMap.fl then v else s.get j := State.get_set s _ j v

@[simp] theorem State.pp_setPp : (s.setPp v).pp = v := State.get_set_same s _ v

@[simp] theorem State.sp_setSp : (s.setSp v).sp = v := State.get_set_same s _ v

@[simp] theorem State.fl_setFl : (s.setFl v).fl = v := State.get_set_same s _ v

/-! ### pp, sp and fl are registers of the file (R13) -/

theorem State.pp_set : (s.set i v).pp = if s.cfg.regMap.pp = i then v else s.pp := State.get_set s i _ v

theorem State.sp_set : (s.set i v).sp = if s.cfg.regMap.sp = i then v else s.sp := State.get_set s i _ v

theorem State.fl_set : (s.set i v).fl = if s.cfg.regMap.fl = i then v else s.fl := State.get_set s i _ v

/-! ### `State.advance` -/

@[simp] theorem State.advance_cfg : (s.advance n).cfg = s.cfg := rfl

@[simp] theorem State.advance_mem : (s.advance n).mem = s.mem := rfl

@[simp] theorem State.pp_advance : (s.advance n).pp = s.pp + BitVec.ofNat 32 n := State.pp_setPp s _

/-- An advance changes the register at index PP and no other. -/
theorem State.get_advance :
    (s.advance n).get j = if j = s.cfg.regMap.pp then s.pp + BitVec.ofNat 32 n else s.get j := State.get_setPp s j _

/-! ### Flags -/

@[simp] theorem State.setFlag_cfg : (s.setFlag f b).cfg = s.cfg := rfl

@[simp] theorem State.setFlag_mem : (s.setFlag f b).mem = s.mem := rfl

/-- A flag write changes the register at index FL and no other. -/
theorem State.get_setFlag :
    (s.setFlag f b).get j = if j = s.cfg.regMap.fl then withBit s.fl (s.cfg.flagMap.bit f) b else s.get j :=
  State.get_setFl s j _

@[simp] theorem State.fl_setFlag : (s.setFlag f b).fl = withBit s.fl (s.cfg.flagMap.bit f) b := State.fl_setFl s _

/-- Writing one bit writes that bit and keeps the other 31. -/
theorem getLsbD_withBit (w : Word) (k l : Fin 32) (c : Bool) :
    (withBit w k c).getLsbD l.val = if l = k then c else w.getLsbD l.val := by
  have hl := l.isLt
  have hk := k.isLt
  by_cases h : l = k
  · subst h; cases c <;> simp [withBit]
  · have hne : ¬ k.val = l.val := fun e => h (Fin.ext e.symm)
    cases c <;> simp [withBit, h, Ne.symm hne]

/-! ### Equality of states -/

/-- Two states are equal when parameters, every register and memory are. -/
theorem State.ext_get {s t : State} (hc : s.cfg = t.cfg) (hr : ∀ i, s.get i = t.get i) (hm : s.mem = t.mem) : s = t := by
  cases s with
  | mk c r m =>
    cases t with
    | mk c' r' m' =>
      have : r = r' := Vector.ext fun k hk => hr ⟨k, hk⟩
      simp_all

end Sys2Proof.Machine
end

