-- ==== Sys2Proof/Laws/Exec.lean ====
section
/-! SUPPORT. What the shared shapes of the meanings can do, what a fetch answers, and what any step does to parameters and
memory, each said once. -/

namespace Sys2Proof.Machine

variable {s t : State} {rd : RegIdx} {v : Word} {n : Nat}

/-! ### The shapes of results -/

/-- A result and an advance, register by register: at PP the advance of what pp holds after the write, at rd the result. -/
theorem get_writeResult (j : RegIdx) : ((s.set rd v).advance n).get j =
    if j = s.cfg.regMap.pp then (if s.cfg.regMap.pp = rd then v else s.pp) + BitVec.ofNat 32 n
    else if j = rd then v else s.get j := by
  simp only [State.get_advance, State.set_cfg, State.pp_set, State.get_set]

/-- A conditional jump answers a next state; register by register, only PP changes. -/
theorem jumpIf_next (taken : Bool) : ∃ t, s.jumpIf taken rd = .next t ∧ t.cfg = s.cfg ∧ t.mem = s.mem ∧
    ∀ j, t.get j = if j = s.cfg.regMap.pp then (if taken then s.get rd else s.pp + 2) else s.get j := by
  cases taken
  · exact ⟨_, rfl, rfl, rfl, fun j => State.get_advance s j 2⟩
  · exact ⟨_, rfl, rfl, rfl, fun j => State.get_setPp s j _⟩

/-- Setting pp to what it holds changes nothing (R150's self-jump). -/
theorem setPp_pp : s.setPp s.pp = s := by
  refine State.ext_get rfl (fun i => ?_) rfl
  rw [State.get_setPp]
  split
  · next h => rw [h]; rfl
  · rfl

/-- The index after rd is a register exactly when rd is at most 16 (R78). -/
theorem nextReg_ok {rd1 : RegIdx} (h : rd1.val = rd.val + 1) : nextReg rd = .ok rd1 := by
  simp [nextReg, checkReg_eq_ok.mpr h.symm]

theorem nextReg_fault (h : 17 ≤ rd.val) : nextReg rd = .error .invalidRegister := by
  simp [nextReg, checkReg_of_ge (show 18 ≤ rd.val + 1 by omega), faultOfDecode]

/-! ### pp, sp and fl are distinct registers in valid parameters -/

theorem sp_advance (h : s.cfg.Valid) : (s.advance n).sp = s.sp := by
  show State.get _ _ = State.get _ _
  rw [State.get_advance]; simp [h.pp_ne_sp.symm]

theorem fl_advance (h : s.cfg.Valid) : (s.advance n).fl = s.fl := by
  show State.get _ _ = State.get _ _
  rw [State.get_advance]; simp [h.pp_ne_fl.symm]

theorem pp_setSp (h : s.cfg.Valid) : (s.setSp v).pp = s.pp := by
  show State.get _ _ = State.get _ _
  rw [State.get_setSp]; simp [h.pp_ne_sp]

theorem fl_setSp (h : s.cfg.Valid) : (s.setSp v).fl = s.fl := by
  show State.get _ _ = State.get _ _
  rw [State.get_setSp]; simp [h.sp_ne_fl.symm]

theorem pp_setFlag (h : s.cfg.Valid) (f : Flag) (b : Bool) : (s.setFlag f b).pp = s.pp := by
  show State.get _ _ = State.get _ _
  rw [State.get_setFlag]; simp [h.pp_ne_fl]

theorem sp_setFlag (h : s.cfg.Valid) (f : Flag) (b : Bool) : (s.setFlag f b).sp = s.sp := by
  show State.get _ _ = State.get _ _
  rw [State.get_setFlag]; simp [h.sp_ne_fl]

theorem flag_advance (h : s.cfg.Valid) (g : Flag) : (s.advance n).flag g = s.flag g := by
  simp only [State.flag, fl_advance h, State.advance_cfg]

/-- Reading a flag after writing one. -/
theorem flag_setFlag (f g : Flag) (b : Bool) :
    (s.setFlag f b).flag g = if s.cfg.flagMap.bit g = s.cfg.flagMap.bit f then b else s.flag g := by
  simp only [State.flag, State.fl_setFlag, State.setFlag_cfg, getLsbD_withBit]

/-! ### The instructions that can fault: when they complete and when they do not -/

variable {ra rb : RegIdx}

theorem exec_load_ok (h : (s.get ra).toNat + 3 ≤ s.cfg.memSize) : ∃ w, s.load24 (s.get ra) = .ok w ∧
    exec (.load rd ra) s = .next ((s.set rd (zext32 w)).advance 3) :=
  ⟨_, State.load24_ok h, by simp only [exec, execLoad, State.load24_ok h]; rfl⟩

theorem exec_load_fault (h : s.cfg.memSize < (s.get ra).toNat + 3) : exec (.load rd ra) s = .fault .memoryFault := by
  simp only [exec, execLoad, State.load24_fault h]; rfl

/-- store inside memory: the three bytes written, then pp or sp advanced by STORE_ADVANCES_PP. -/
theorem exec_store_ok (h : (s.get rd).toNat + 3 ≤ s.cfg.memSize) : ∃ u : State,
    u = s.setMem (Memory.writeBytes s.mem (s.get rd).toNat (bytes24 (low24 (s.get ra)))) ∧
    exec (.store rd ra) s = .next (if s.cfg.storeAdvancesPp then u.advance 3 else u.setSp (s.sp + 3)) := by
  refine ⟨_, rfl, ?_⟩
  by_cases hq : s.cfg.storeAdvancesPp = true <;>
    simp only [exec, execStore, State.store24_ok _ h, State.sp_setMem, hq, if_true, if_false, Bool.false_eq_true]

theorem exec_store_fault (h : s.cfg.memSize < (s.get rd).toNat + 3) : exec (.store rd ra) s = .fault .memoryFault := by
  simp only [exec, execStore, State.store24_fault _ h]; rfl

/-- push inside memory: sp lowered, the three bytes of the register as it then is written there, then pp advanced. -/
theorem exec_push_ok (h : (s.sp - 4).toNat + 3 ≤ s.cfg.memSize) : exec (.push rd) s =
    .next (((s.setSp (s.sp - 4)).setMem
      (Memory.writeBytes s.mem (s.sp - 4).toNat (bytes24 (low24 ((s.setSp (s.sp - 4)).get rd))))).advance 2) := by
  have h' : (s.sp - 4).toNat + 3 ≤ (s.setSp (s.sp - 4)).cfg.memSize := h
  simp only [exec, execPush, State.store24_ok _ h']; rfl

theorem exec_push_fault (h : s.cfg.memSize < (s.sp - 4).toNat + 3) : exec (.push rd) s = .fault .memoryFault := by
  have h' : (s.setSp (s.sp - 4)).cfg.memSize < (s.sp - 4).toNat + 3 := h
  simp only [exec, execPush, State.store24_fault _ h']; rfl

theorem exec_pop_ok (h : s.sp.toNat + 3 ≤ s.cfg.memSize) : ∃ w, s.load24 s.sp = .ok w ∧
    exec (.pop rd) s = .next (((s.set rd (zext32 w)).setSp ((s.set rd (zext32 w)).sp + 4)).advance 2) :=
  ⟨_, State.load24_ok h, by simp only [exec, execPop, State.load24_ok h]⟩

theorem exec_pop_fault (h : s.cfg.memSize < s.sp.toNat + 3) : exec (.pop rd) s = .fault .memoryFault := by
  simp only [exec, execPop, State.load24_fault h]; rfl

theorem exec_div_ok {rd1 : RegIdx} (h : rd1.val = rd.val + 1) (hb : (s.get rb).toInt ≠ 0) : exec (.div rd ra rb) s =
    .next (((s.set rd (to32 ((s.get ra).toInt.tdiv (s.get rb).toInt))).set rd1
      (to32 ((s.get ra).toInt - (s.get ra).toInt.tdiv (s.get rb).toInt * (s.get rb).toInt))).advance 4) := by
  simp only [exec, execDiv, nextReg_ok h, hb, if_false]

theorem exec_div_zero (h : rd.val < 17) (hb : s.get rb = 0) : exec (.div rd ra rb) s = .fault .arithmeticFault := by
  simp [exec, execDiv, nextReg_ok (rd := rd) (rd1 := ⟨rd.val + 1, by omega⟩) rfl, hb, State.raise]

theorem exec_div_last (h : 17 ≤ rd.val) : exec (.div rd ra rb) s = .fault .invalidRegister := by
  simp [exec, execDiv, nextReg_fault h, State.raise]

/-! ### The fetch -/

/-- A fetch whose window is in memory decodes the six bytes at pp (R70, R175). -/
theorem fetchInstr_inRange (h : s.pp.toNat + 6 ≤ s.cfg.memSize) : s.fetchInstr =
    match decodeBytes s.cfg.opcodeMap (Memory.readBytes s.mem s.pp.toNat 6) with
    | .error e => .error (faultOfDecode e)
    | .ok i => .ok i := by
  have hm : s.memRead s.pp.toNat 6 = .ok (Memory.readBytes s.mem s.pp.toNat 6) := if_pos h
  unfold State.fetchInstr
  rw [hm] <;> rfl

/-- A fetch whose window passes the end of memory is a MemoryFault (R71). -/
theorem fetchInstr_outOfRange (h : s.cfg.memSize < s.pp.toNat + 6) : s.fetchInstr = .error .memoryFault := by
  have : ¬ s.inRange s.pp.toNat 6 := by simp [State.inRange]; omega
  simp [State.fetchInstr, State.memRead, this]

/-- The window of six bytes is those bytes. -/
theorem decodeBytes_readBytes (o : OpcodeMap) (m : Memory) (a : Nat) : decodeBytes o (Memory.readBytes m a 6) =
    decode o ⟨Memory.read m a, Memory.read m (a + 1), Memory.read m (a + 2), Memory.read m (a + 3),
      Memory.read m (a + 4), Memory.read m (a + 5)⟩ := rfl

/-! ### What any instruction does to parameters and memory -/

/-- The memory of a next state: the old one, or the old one with three bytes written inside memory. -/
def MemoryStep (s t : State) : Prop :=
  t.mem = s.mem ∨ ∃ (a : Nat) (w : Word24), a + 3 ≤ s.cfg.memSize ∧ t.mem = Memory.writeBytes s.mem a (bytes24 w)

theorem store24_next {addr : Word} {w : Word24} {u : State} (h : s.store24 addr w = .ok u) :
    addr.toNat + 3 ≤ s.cfg.memSize ∧ u = s.setMem (Memory.writeBytes s.mem addr.toNat (bytes24 w)) := by
  simpa [bytes24] using State.memWrite_ok h

theorem writeResult_inv (h : s.writeResult rd v n = .next t) : t.cfg = s.cfg ∧ t.mem = s.mem := by
  cases h; exact ⟨rfl, rfl⟩

theorem jumpIf_inv {b : Bool} (h : s.jumpIf b rd = .next t) : t.cfg = s.cfg ∧ t.mem = s.mem := by
  cases b <;> cases h <;> exact ⟨rfl, rfl⟩

/-- Every next state of an instruction has the same parameters, and memory as `MemoryStep` says. -/
theorem exec_next {i : Instr} (h : exec i s = .next t) : t.cfg = s.cfg ∧ MemoryStep s t := by
  cases i with
  | add | and | or | sub | mul | not | mv | shl | shr | shra | li =>
    exact (writeResult_inv h).imp_right .inl
  | jeq | jnq | jlt | jge | jgt | jle =>
    exact (jumpIf_inv h).imp_right .inl
  | cmp | jmp => cases h; exact ⟨rfl, .inl rfl⟩
  | div rd ra rb =>
    simp only [exec, execDiv, State.raise] at h
    split at h
    · cases h
    · split at h
      · cases h
      · cases h; exact ⟨rfl, .inl rfl⟩
  | load rd ra =>
    simp only [exec, execLoad, State.raise] at h
    split at h
    · cases h
    · exact (writeResult_inv h).imp_right .inl
  | pop rd =>
    simp only [exec, execPop, State.raise] at h
    split at h
    · cases h
    · cases h; exact ⟨rfl, .inl rfl⟩
  | store rd ra =>
    simp only [exec, execStore, State.raise] at h
    split at h
    · cases h
    · next u hu =>
      obtain ⟨hr, rfl⟩ := store24_next hu
      split at h <;> cases h <;> exact ⟨rfl, .inr ⟨_, _, hr, rfl⟩⟩
  | push rd =>
    simp only [exec, execPush, State.raise] at h
    split at h
    · cases h
    · next u hu =>
      obtain ⟨hr, rfl⟩ := store24_next hu
      cases h; exact ⟨rfl, .inr ⟨_, _, hr, rfl⟩⟩

/-- Every next state of a step is a next state of some decoded instruction. -/
theorem step_next (h : step s = .next t) : ∃ i, s.fetchInstr = .ok i ∧ exec i s = .next t := by
  unfold step at h
  split at h
  · cases h
  · exact ⟨_, ‹_›, h⟩

end Sys2Proof.Machine
end

