-- ==== Sys2Proof/Laws/PerInstr.lean ====
section
/-! SUPPORT. Statements made per instruction. `EncodingShape` is about an instruction as syntax: byte 0 of its encoding is its
mnemonic's code, its length is its format's (R72, R76, R81), and its index fields are bytes 1, 2, 3 in order (R73). -/

namespace Sys2Proof

/-- The encoding of `i` begins with its opcode byte, has the length of its format, and byte 1 is a register index that the
instruction uses. -/
def Laws.EncodingShape.Statement (i : Instr) : Prop :=
  ∀ o : OpcodeMap, (encode o i).head? = some (o.code i.mnemonic) ∧ (encode o i).length = instrLength i ∧
    ∃ r : RegIdx, r.val ∈ i.indices ∧ (encode o i)[1]? = some (regByte r)

variable (rd ra rb : RegIdx) (imm : Word) (amount : Byte)

theorem Laws.EncodingShape.add : Laws.EncodingShape.Statement (.add rd ra rb) :=
  fun _ => ⟨rfl, rfl, rd, by simp [Instr.indices], rfl⟩

theorem Laws.EncodingShape.and : Laws.EncodingShape.Statement (.and rd ra rb) :=
  fun _ => ⟨rfl, rfl, rd, by simp [Instr.indices], rfl⟩

theorem Laws.EncodingShape.cmp : Laws.EncodingShape.Statement (.cmp rd ra) :=
  fun _ => ⟨rfl, rfl, rd, by simp [Instr.indices], rfl⟩

theorem Laws.EncodingShape.div : Laws.EncodingShape.Statement (.div rd ra rb) :=
  fun _ => ⟨rfl, rfl, rd, by simp [Instr.indices], rfl⟩

theorem Laws.EncodingShape.jeq : Laws.EncodingShape.Statement (.jeq rd) :=
  fun _ => ⟨rfl, rfl, rd, by simp [Instr.indices], rfl⟩

theorem Laws.EncodingShape.jge : Laws.EncodingShape.Statement (.jge rd) :=
  fun _ => ⟨rfl, rfl, rd, by simp [Instr.indices], rfl⟩

theorem Laws.EncodingShape.jgt : Laws.EncodingShape.Statement (.jgt rd) :=
  fun _ => ⟨rfl, rfl, rd, by simp [Instr.indices], rfl⟩

theorem Laws.EncodingShape.jle : Laws.EncodingShape.Statement (.jle rd) :=
  fun _ => ⟨rfl, rfl, rd, by simp [Instr.indices], rfl⟩

theorem Laws.EncodingShape.jlt : Laws.EncodingShape.Statement (.jlt rd) :=
  fun _ => ⟨rfl, rfl, rd, by simp [Instr.indices], rfl⟩

theorem Laws.EncodingShape.jmp : Laws.EncodingShape.Statement (.jmp rd) :=
  fun _ => ⟨rfl, rfl, rd, by simp [Instr.indices], rfl⟩

theorem Laws.EncodingShape.jnq : Laws.EncodingShape.Statement (.jnq rd) :=
  fun _ => ⟨rfl, rfl, rd, by simp [Instr.indices], rfl⟩

theorem Laws.EncodingShape.li : Laws.EncodingShape.Statement (.li rd imm) :=
  fun _ => ⟨rfl, rfl, rd, by simp [Instr.indices], rfl⟩

theorem Laws.EncodingShape.load : Laws.EncodingShape.Statement (.load rd ra) :=
  fun _ => ⟨rfl, rfl, rd, by simp [Instr.indices], rfl⟩

theorem Laws.EncodingShape.mul : Laws.EncodingShape.Statement (.mul rd ra rb) :=
  fun _ => ⟨rfl, rfl, rd, by simp [Instr.indices], rfl⟩

theorem Laws.EncodingShape.mv : Laws.EncodingShape.Statement (.mv rd ra) :=
  fun _ => ⟨rfl, rfl, rd, by simp [Instr.indices], rfl⟩

theorem Laws.EncodingShape.not : Laws.EncodingShape.Statement (.not rd ra) :=
  fun _ => ⟨rfl, rfl, rd, by simp [Instr.indices], rfl⟩

theorem Laws.EncodingShape.or : Laws.EncodingShape.Statement (.or rd ra rb) :=
  fun _ => ⟨rfl, rfl, rd, by simp [Instr.indices], rfl⟩

theorem Laws.EncodingShape.pop : Laws.EncodingShape.Statement (.pop rd) :=
  fun _ => ⟨rfl, rfl, rd, by simp [Instr.indices], rfl⟩

theorem Laws.EncodingShape.push : Laws.EncodingShape.Statement (.push rd) :=
  fun _ => ⟨rfl, rfl, rd, by simp [Instr.indices], rfl⟩

theorem Laws.EncodingShape.shl : Laws.EncodingShape.Statement (.shl rd ra amount) :=
  fun _ => ⟨rfl, rfl, rd, by simp [Instr.indices], rfl⟩

theorem Laws.EncodingShape.shr : Laws.EncodingShape.Statement (.shr rd ra amount) :=
  fun _ => ⟨rfl, rfl, rd, by simp [Instr.indices], rfl⟩

theorem Laws.EncodingShape.shra : Laws.EncodingShape.Statement (.shra rd ra amount) :=
  fun _ => ⟨rfl, rfl, rd, by simp [Instr.indices], rfl⟩

theorem Laws.EncodingShape.store : Laws.EncodingShape.Statement (.store rd ra) :=
  fun _ => ⟨rfl, rfl, rd, by simp [Instr.indices], rfl⟩

theorem Laws.EncodingShape.sub : Laws.EncodingShape.Statement (.sub rd ra rb) :=
  fun _ => ⟨rfl, rfl, rd, by simp [Instr.indices], rfl⟩

end Sys2Proof
end

