-- ==== Sys2Proof/Laws/Word.lean ====
section
/-! SUPPORT. `to32` carries exact integer sums, differences and products to the wrapping ones of words (R123), and gives a
word back from its unsigned or signed value. -/

namespace Sys2Proof

theorem to32_natCast (n : Nat) : to32 (n : Int) = BitVec.ofNat 32 n := by simp [to32]

@[simp] theorem to32_toNat (v : Word) : to32 (v.toNat : Int) = v := by simp [to32]

@[simp] theorem to32_toInt (v : Word) : to32 v.toInt = v := by simp [to32]

theorem to32_add (a b : Int) : to32 (a + b) = to32 a + to32 b := by simp only [to32, BitVec.ofInt_add]

theorem to32_mul (a b : Int) : to32 (a * b) = to32 a * to32 b := by simp only [to32, BitVec.ofInt_mul]

theorem to32_neg (a : Int) : to32 (-a) = -to32 a := by simp only [to32, BitVec.ofInt_neg]

theorem to32_sub (a b : Int) : to32 (a - b) = to32 a - to32 b := by
  rw [Int.sub_eq_add_neg, to32_add, to32_neg, BitVec.sub_eq_add_neg]

end Sys2Proof
end

