-- ==== Sys2Proof/Tests/Slice0.lean ====
section
/-! SUPPORT. Tests of one step each, on vectors of `95_test_vectors.md` (the names carry the vector's number), words written
out from the encodings of `30_encoding.md`, the well-formedness smoke test, and for every statement with hypotheses a witness
that meets them. A vector lists everything that differs after the step, so a test compares with the start state changed by
that list. -/

namespace Sys2Proof.Tests

open Sys2Proof.Machine Sys2Proof.Claims

/-! ### Helpers -/

/-- A state with some registers and some runs of bytes written. -/
def changed (s : State) (regs : List (RegIdx × Word)) (bytes : List (Nat × List Byte)) : State :=
  bytes.foldl (fun u b => u.setMem (Memory.writeBytes u.mem b.1 b.2)) (regs.foldl (fun u r => u.set r.1 r.2) s)

/-- The start state of the vectors: reset, pp = `a` and `code` at `a`. -/
def startAt (a : Nat) (code : List Byte) : State := changed State.reset [(15, BitVec.ofNat 32 a)] [(a, code)]

/-- The start state at the vectors' usual address 0x20. -/
def start (code : List Byte) : State := startAt 0x20 code

/-- The same state in a machine built with STORE_ADVANCES_PP = true. -/
def advancing (s : State) : State := { s with cfg := { s.cfg with storeAdvancesPp := true } }

/-- The step is ok and what differs after it is the list given. -/
def okWith (s : State) (regs : List (RegIdx × Word)) (bytes : List (Nat × List Byte)) : Bool :=
  match step s with
  | .next t => decide (t = changed s regs bytes)
  | .fault _ => false
  | .refused _ => false

/-- The step reports this fault. -/
def faultsWith (s : State) (f : Fault) : Bool :=
  match step s with
  | .next _ => false
  | .fault g => decide (g = f)
  | .refused _ => false

/-- The step of the jump `code 05` at 0x20 with r5 = 0x80, for fl = 0, 2, 4, 6 in turn: pp goes to each of the list's
targets and nothing else differs (`95_test_vectors.md` section 2.9). -/
def jumpsTo (code : Byte) (targets : List Word) : Bool :=
  ([0, 2, 4, 6].zip targets).all fun c =>
    okWith (changed (start [code, 0x05]) [(5, 0x80), (17, c.1)] []) [(15, c.2)] []

/-! ### Arithmetic, logic, move and shift -/

theorem test_v1_add_wraps :
    okWith (changed (start [0x00, 0x02, 0x00, 0x01]) [(0, 0xFFFFFFFF), (1, 1)] []) [(15, 0x24)] [] = true := by decide

theorem test_v4_add_to_pp :
    okWith (changed (start [0x00, 0x0F, 0x00, 0x01]) [(0, 0x40), (1, 0x10)] []) [(15, 0x54)] [] = true := by decide

theorem test_v5_sub_borrows :
    okWith (changed (start [0x17, 0x02, 0x00, 0x01]) [(1, 1)] []) [(2, 0xFFFFFFFF), (15, 0x24)] [] = true := by decide

theorem test_v6_sub_signed_edge :
    okWith (changed (start [0x17, 0x02, 0x00, 0x01]) [(0, 0x80000000), (1, 1)] []) [(2, 0x7FFFFFFF), (15, 0x24)] [] =
      true := by decide

theorem test_v8_and :
    okWith (changed (start [0x01, 0x03, 0x01, 0x02]) [(1, 0xFF00FF00), (2, 0x0FF00FF0)] [])
      [(3, 0x0F000F00), (15, 0x24)] [] = true := by decide

theorem test_v9_or :
    okWith (changed (start [0x10, 0x03, 0x01, 0x02]) [(1, 0xFF00FF00), (2, 0x0FF00FF0)] [])
      [(3, 0xFFF0FFF0), (15, 0x24)] [] = true := by decide

theorem test_v11_not_in_place :
    okWith (changed (start [0x0F, 0x01, 0x01]) [(1, 0xFFFFFFFF)] []) [(1, 0), (15, 0x23)] [] = true := by decide

theorem test_v13_mv_reads_own_address :
    okWith (start [0x0E, 0x01, 0x0F]) [(1, 0x20), (15, 0x23)] [] = true := by decide

theorem test_v15_mv_to_fl_unmasked :
    okWith (changed (start [0x0E, 0x11, 0x01]) [(1, 0xFFFFFFFF)] []) [(17, 0xFFFFFFFF), (15, 0x23)] [] = true := by decide

theorem test_v20_shl_by_33 :
    okWith (changed (start [0x13, 0x01, 0x00, 0x21]) [(0, 3)] []) [(1, 6), (15, 0x24)] [] = true := by decide

theorem test_v29_shl_amount_is_no_register :
    okWith (changed (start [0x13, 0x01, 0x00, 0x12]) [(0, 1)] []) [(1, 0x00040000), (15, 0x24)] [] = true := by decide

theorem test_v22_shr_clears_the_sign :
    okWith (changed (start [0x14, 0x01, 0x00, 0x01]) [(0, 0x80000000)] []) [(1, 0x40000000), (15, 0x24)] [] = true := by
  decide

theorem test_v24_shr_by_36 :
    okWith (changed (start [0x14, 0x01, 0x00, 0x24]) [(0, 0xF0000000)] []) [(1, 0x0F000000), (15, 0x24)] [] = true := by
  decide

theorem test_v26_shra_by_31 :
    okWith (changed (start [0x15, 0x01, 0x00, 0x1F]) [(0, 0x80000000)] []) [(1, 0xFFFFFFFF), (15, 0x24)] [] = true := by
  decide

theorem test_v28_shra_rounds_down :
    okWith (changed (start [0x15, 0x01, 0x00, 0x02]) [(0, 0xFFFFFFD5)] []) [(1, 0xFFFFFFF5), (15, 0x24)] [] = true := by
  decide

/-! ### Compare, multiply, divide -/

theorem test_v35_cmp_is_signed :
    okWith (changed (start [0x02, 0x00, 0x01]) [(0, 0x80000000), (1, 0x7FFFFFFF)] []) [(17, 2), (15, 0x23)] [] = true := by
  decide

theorem test_v37_cmp_keeps_the_other_bits :
    okWith (changed (start [0x02, 0x00, 0x01]) [(0, 1), (1, 2), (17, 0xFFFFFF79)] []) [(17, 0xFFFFFF7B), (15, 0x23)] [] =
      true := by decide

theorem test_v42_mul_accumulates :
    okWith (changed (start [0x0D, 0x00, 0x00, 0x00]) [(0, 3)] []) [(0, 0x0C), (15, 0x24)] [] = true := by decide

theorem test_v45_mul_signs :
    okWith (changed (start [0x0D, 0x02, 0x00, 0x01]) [(0, 0xFFFFFFFF), (1, 2), (2, 1)] []) [(2, 0xFFFFFFFF), (15, 0x24)] [] =
      true := by decide

theorem test_v51_div_toward_zero :
    okWith (changed (start [0x03, 0x05, 0x03, 0x04]) [(3, 0xFFFFFFD5), (4, 5)] [])
      [(5, 0xFFFFFFF8), (6, 0xFFFFFFFD), (15, 0x24)] [] = true := by decide

theorem test_v61_div_to_pp_and_sp :
    okWith (changed (start [0x03, 0x0F, 0x03, 0x04]) [(3, 0x100), (4, 3)] []) [(15, 0x59), (16, 1)] [] = true := by decide

/-! ### Load immediate, load, store -/

theorem test_v72_li_immediate_is_no_register :
    okWith (start [0x0B, 0x00, 0x12, 0x00, 0x00, 0x00]) [(0, 0x12000000), (15, 0x26)] [] = true := by decide

theorem test_v73_li_to_pp :
    okWith (start [0x0B, 0x0F, 0x00, 0x00, 0x00, 0x80]) [(15, 0x86)] [] = true := by decide

theorem test_v82_load_unaligned_in_place :
    okWith (changed (start [0x0C, 0x00, 0x00]) [(0, 0x81)] [(0x80, [0x11, 0x22, 0x33, 0x44])])
      [(0, 0x00223344), (15, 0x23)] [] = true := by decide

theorem test_v86_load_does_not_wrap :
    faultsWith (changed (start [0x0C, 0x01, 0x00]) [(0, 0xFFFFFFFF), (1, 7)] []) .memoryFault = true := by decide

theorem test_v97_store_with_the_quirk :
    okWith (changed (start [0x16, 0x10, 0x01]) [(1, 0x00010203), (16, 0x90)] []) [(16, 0x93)] [(0x90, [1, 2, 3])] =
      true := by decide

theorem test_v91_store_advancing_pp :
    okWith (advancing (changed (start [0x16, 0x00, 0x01]) [(0, 0x80), (1, 0xCAFEBABE)] []))
      [(15, 0x23)] [(0x80, [0xFE, 0xBA, 0xBE])] = true := by decide

/-! ### The stack -/

theorem test_v106_push_sp_pushes_the_new_sp :
    okWith (start [0x12, 0x10]) [(16, 0xF8), (15, 0x22)] [(0xF8, [0, 0, 0xF8])] = true := by decide

theorem test_v108_push_keeps_the_fourth_byte :
    okWith (changed (start [0x12, 0x00]) [(0, 0xFFFFFFFF)] [(0xF8, [0x11, 0x11, 0x11, 0x77])])
      [(16, 0xF8), (15, 0x22)] [(0xF8, [0xFF, 0xFF, 0xFF])] = true := by decide

theorem test_v115_pop_sp :
    okWith (changed (start [0x11, 0x10]) [(16, 0xF8)] [(0xF8, [0, 0, 0x40])]) [(16, 0x44), (15, 0x22)] [] = true := by decide

theorem test_v116_pop_pp :
    okWith (changed (start [0x11, 0x0F]) [(16, 0xF8)] [(0xF8, [0, 0, 0x60])]) [(15, 0x62), (16, 0xFC)] [] = true := by decide

/-! ### Jumps -/

theorem test_jmp_cells : jumpsTo 0x09 [0x80, 0x80, 0x80, 0x80] = true := by decide

theorem test_v130_jmp_pp_parks : okWith (start [0x09, 0x0F]) [] [] = true := by decide

theorem test_jeq_cells : jumpsTo 0x04 [0x22, 0x22, 0x80, 0x80] = true := by decide

theorem test_jnq_cells : jumpsTo 0x0A [0x80, 0x80, 0x22, 0x22] = true := by decide

theorem test_jlt_cells : jumpsTo 0x08 [0x22, 0x80, 0x22, 0x80] = true := by decide

theorem test_jge_cells : jumpsTo 0x05 [0x80, 0x22, 0x80, 0x22] = true := by decide

theorem test_jgt_cells : jumpsTo 0x06 [0x80, 0x22, 0x22, 0x22] = true := by decide

theorem test_jle_cells : jumpsTo 0x07 [0x22, 0x80, 0x80, 0x80] = true := by decide

/-! ### Faults and their priority -/

theorem test_v140_illegal_opcode : faultsWith (start [0x18]) .illegalInstruction = true := by decide

theorem test_v150_fetch_before_illegal : faultsWith (startAt 0xFB [0x18]) .memoryFault = true := by decide

theorem test_v152_index_before_divisor :
    faultsWith (changed (start [0x03, 0x11, 0x03, 0x04]) [(3, 1)] []) .invalidRegister = true := by decide

theorem test_v154_index_before_address :
    faultsWith (changed (start [0x0C, 0x12, 0x00]) [(0, 0xFFFF)] []) .invalidRegister = true := by decide

theorem test_v156_window_does_not_wrap :
    faultsWith (changed (start []) [(15, 0xFFFFFFFE)] []) .memoryFault = true := by decide

theorem test_v157_illegal_before_index : faultsWith (start [0x18, 0x12, 0x12, 0x12]) .illegalInstruction = true := by decide

/-! ### Words written out from the encodings (R72 to R77), one for every constructor -/

theorem test_decode_alu :
    decodeTableWord 32 0x00110F10 = some (.add 17 15 16) ∧ decodeTableWord 32 0x17030405 = some (.sub 3 4 5) ∧
    decodeTableWord 32 0x01030102 = some (.and 3 1 2) ∧ decodeTableWord 32 0x10030102 = some (.or 3 1 2) ∧
    decodeTableWord 24 0x0F0100 = some (.not 1 0) ∧ decodeTableWord 24 0x0E010F = some (.mv 1 15) := by decide

theorem test_decode_shifts :
    decodeTableWord 32 0x1301001F = some (.shl 1 0 0x1F) ∧ decodeTableWord 32 0x14010024 = some (.shr 1 0 0x24) ∧
    decodeTableWord 32 0x150703E2 = some (.shra 7 3 0xE2) := by decide

theorem test_decode_compare_mul_div :
    decodeTableWord 24 0x020001 = some (.cmp 0 1) ∧ decodeTableWord 32 0x0D020001 = some (.mul 2 0 1) ∧
    decodeTableWord 32 0x03100304 = some (.div 16 3 4) := by decide

theorem test_decode_memory :
    decodeTableWord 48 0x0B0101020304 = some (.li 1 0x01020304) ∧ decodeTableWord 24 0x0C0100 = some (.load 1 0) ∧
    decodeTableWord 24 0x161001 = some (.store 16 1) ∧ decodeTableWord 16 0x1210 = some (.push 16) ∧
    decodeTableWord 16 0x1101 = some (.pop 1) := by decide

theorem test_decode_jumps :
    decodeTableWord 16 0x090F = some (.jmp 15) ∧ decodeTableWord 16 0x0405 = some (.jeq 5) ∧
    decodeTableWord 16 0x0A05 = some (.jnq 5) ∧ decodeTableWord 16 0x0805 = some (.jlt 5) ∧
    decodeTableWord 16 0x0505 = some (.jge 5) ∧ decodeTableWord 16 0x0605 = some (.jgt 5) ∧
    decodeTableWord 16 0x0705 = some (.jle 5) := by decide

/-- Rejected by name: opcode 0x18 (V140), index 18 (V142), div with rd = 17 (V64), five bytes. -/
theorem test_decode_rejects :
    decodeBytes OpcodeMap.reference [0x18, 0, 0, 0, 0, 0] = .error (.illegalOpcode 0x18) ∧
    decodeBytes OpcodeMap.reference [0x00, 0x12, 0, 0, 0, 0] = .error (.invalidRegister 18) ∧
    decodeBytes OpcodeMap.reference [0x03, 0x11, 0x03, 0x04, 0, 0] = .error (.invalidRegister 18) ∧
    decodeBytes OpcodeMap.reference [0, 0, 0, 0, 0] = .error .truncated := by
  refine ⟨rfl, rfl, rfl, rfl⟩

/-- WellFormed's one check: div's second destination is a register (R78). Every other index is in range by its type. -/
theorem test_wellFormed_smoke :
    Instr.wellFormed (.div 17 3 4) = false ∧ Instr.wellFormed (.div 16 3 4) = true ∧
    Instr.wellFormed (.add 17 17 17) = true := by decide

/-- The word placed where the first step after reset fetches is what that step runs. -/
theorem test_withFetchWord_runs :
    okWith (State.reset.withFetchWord 24 0x0F0100) [(1, 0xFFFFFFFF), (15, 3)] [] = true ∧
    okWith (State.reset.withFetchWord 48 0x0B0101020304) [(1, 0x01020304), (15, 6)] [] = true := by decide

/-! ### The interfaces -/

/-- The high nibble first, and what is malformed (R173, R195). -/
theorem test_hex :
    parseHex ['0', 'B', 'f', '1'] = .ok [0x0B, 0xF1] ∧ parseHex ['0'] = .error .malformedImage ∧
    parseHex ['0', 'g'] = .error .malformedImage := ⟨rfl, rfl, rfl⟩

/-- The names of another REG_MAP, with sp first: its 15 names go to the other indices in order (R7). -/
theorem test_names_of_another_map :
    (List.finRange 18).map (regName ⟨9, 0, 17,
      #v["a", "b", "c", "d", "e", "f", "g", "h", "i", "j", "k", "l", "m", "n", "o"]⟩) =
      ["sp", "a", "b", "c", "d", "e", "f", "g", "h", "pp", "i", "j", "k", "l", "m", "n", "o", "fl"] := by decide

/-- P4a of `95_test_vectors.md`, one step of the driver: after the quirk's store pp is at the store again. -/
theorem test_drive_once :
    ((changed (start [0x16, 0x00, 0x01]) [(0, 0x80)] []).drive (fun _ => false) 1).2 = .ok ∧
    ((start [0x18]).drive (fun _ => false) 1).2 = .fault .illegalInstruction ∧
    ((start [0x18]).drive (fun _ => true) 1).2 = .ok := ⟨rfl, rfl, rfl⟩

/-! ### Witnesses: for every statement with hypotheses, a concrete case that meets them -/

theorem witness_DecodeOfEncodeIsTheInstruction :
    (Config.reference.Valid ∧ Instr.wellFormed (.div 16 17 0) = true ∧
      6 ≤ (encode Config.reference.opcodeMap (.div 16 17 0) ++ [0xFF, 0xFF]).length) ∧
    Instr.wellFormed (.li 17 0xFFFFFFFF) = true ∧
      6 ≤ (encode Config.reference.opcodeMap (.li 17 0xFFFFFFFF) ++ []).length := by decide

theorem witness_EncodeOfDecodeIsTheWindow :
    decode OpcodeMap.reference ⟨0x13, 0x11, 0x00, 0xFF, 0x12, 0x34⟩ = .ok (.shl 17 0 0xFF) := rfl

theorem witness_DecodedInstructionsAreWellFormed :
    decodeBytes OpcodeMap.reference [0x03, 0x10, 0x11, 0x00, 0xFF, 0xFF] = .ok (.div 16 17 0) := rfl

theorem witness_BytesPastTheLengthAreIgnored :
    Config.reference.Valid ∧ Config.reference.opcodeMap.code .push = 0x12 ∧
    (windowBytes ⟨0x12, 0, 0xFF, 0xFF, 0xFF, 0xFF⟩).take (formatLength (formatOf .push)) =
      (windowBytes ⟨0x12, 0, 0, 0, 0, 0⟩).take (formatLength (formatOf .push)) := by decide

/-- At 0xFA, the last address with a window in 256 bytes. -/
theorem witness_StepRunsTheDecodedInstruction :
    (startAt 0xFA [0x09, 0x00]).pp.toNat + 6 ≤ (startAt 0xFA [0x09, 0x00]).cfg.memSize ∧
    decodeBytes (startAt 0xFA [0x09, 0x00]).cfg.opcodeMap
      (Memory.readBytes (startAt 0xFA [0x09, 0x00]).mem (startAt 0xFA [0x09, 0x00]).pp.toNat 6) = .ok (.jmp 0) :=
  ⟨by decide, rfl⟩

theorem witness_AFaultRepeatsForever : step (start [0xFF]) = .fault .illegalInstruction := rfl

/-- One state for each clause: the window one byte past the end, no such opcode, index 18, and two that pass the checks and
fault in the execute phase. -/
theorem witness_TheFirstFaultInPhaseOrderIsReported :
    (startAt 0xFB []).cfg.Valid ∧ (startAt 0xFB []).cfg.memSize < (startAt 0xFB []).pp.toNat + 6 ∧
    (start [0x18]).pp.toNat + 6 ≤ (start [0x18]).cfg.memSize ∧
    (∀ m, ((start [0x18]).cfg.opcodeMap.code m).toNat ≠ windowByte (start [0x18]) 0) ∧
    ((start [0x12, 0x12]).cfg.opcodeMap.code .push).toNat = windowByte (start [0x12, 0x12]) 0 ∧
    (∃ k ∈ usedIndices .push (windowByte (start [0x12, 0x12]) 1) 0 0, 18 ≤ k) ∧
    (∀ k ∈ usedIndices .div 16 17 0, k < 18) ∧ exec (.div 16 17 0) (start []) = .fault .arithmeticFault ∧
    exec (.load 0 16) (changed (start []) [(16, 0xFE)] []) = .fault .memoryFault := by
  refine ⟨by decide, by decide, by decide, fun m => ?_, by decide, by decide, by decide, rfl, rfl⟩
  cases m <;> decide

/-- Both causes: the fetch window, and the three bytes of a load one byte past the end. -/
theorem witness_MemoryFaultExactlyPastTheEnd :
    step (startAt 0xFB []) = .fault .memoryFault ∧
    (changed (start [0x0C, 0x01, 0x00]) [(0, 0xFE)] []).fetchInstr = .ok (.load 1 0) ∧
    dataAddress (changed (start [0x0C, 0x01, 0x00]) [(0, 0xFE)] []) (.load 1 0) = some 0xFE ∧
    256 < 0xFE + 3 := ⟨rfl, rfl, rfl, by decide⟩

theorem witness_InvalidRegisterExactlyForUsedIndices :
    (start [0x03, 0x11, 0, 0]).cfg.Valid ∧ step (start [0x03, 0x11, 0, 0]) = .fault .invalidRegister ∧
    ∃ k ∈ usedIndices .div (windowByte (start [0x03, 0x11, 0, 0]) 1) 0 0, 18 ≤ k :=
  ⟨by decide, rfl, by decide⟩

theorem witness_ArithmeticFaultExactlyForAZeroDivisor :
    (start [0x03, 0x05, 0x03, 0x04]).fetchInstr = .ok (.div 5 3 4) ∧ (start [0x03, 0x05, 0x03, 0x04]).get 4 = 0 :=
  ⟨rfl, by decide⟩

theorem witness_IllegalInstructionExactlyForUnmappedOpcodes :
    step (start [0x18]) = .fault .illegalInstruction ∧ 0x18 ≤ (0x18 : Byte).toNat ∧
    OpcodeMap.reference.code .sub = 0x17 := ⟨rfl, by decide, by decide⟩

theorem witness_ShiftAmountCountsModulo32 : (0x1F : Byte).toNat % 32 = (0xFF : Byte).toNat % 32 := by decide

theorem witness_CmpSetsLessAndEqual : (start []).cfg.Valid := by decide

/-- Each clause: rd = 16 with a nonzero divisor, a zero divisor, rd = 17. -/
theorem witness_DivWritesQuotientAndRemainder :
    ((17 : RegIdx).val = (16 : RegIdx).val + 1 ∧ (changed (start []) [(4, 1)] []).get 4 ≠ 0) ∧
    ((16 : RegIdx).val < 17 ∧ (start []).get 4 = 0) ∧ (17 : RegIdx).val = 17 := by decide

/-- Each clause at its boundary: 0xFD, the last address of a word in 256 bytes, and 0xFE. -/
theorem witness_LoadReadsTheWordAtRa :
    ((changed (start []) [(0, 0xFD)] []).get 0).toNat + 3 ≤ (changed (start []) [(0, 0xFD)] []).cfg.memSize ∧
    (changed (start []) [(0, 0xFE)] []).cfg.memSize < ((changed (start []) [(0, 0xFE)] []).get 0).toNat + 3 := by decide

theorem witness_StoreWritesTheWordAtRd :
    ((changed (start []) [(0, 0xFD)] []).get 0).toNat + 3 ≤ (changed (start []) [(0, 0xFD)] []).cfg.memSize ∧
    (start []).cfg.storeAdvancesPp = false ∧ (advancing (start [])).cfg.storeAdvancesPp = true ∧
    (changed (start []) [(0, 0xFE)] []).cfg.memSize < ((changed (start []) [(0, 0xFE)] []).get 0).toNat + 3 := by decide

/-- The state after the store itself is such a `u`, with the load through the store's address register. -/
theorem witness_LoadAfterStoreReadsTheLow24Bits :
    ((changed (start []) [(0, 0xFD)] []).get 0).toNat + 3 ≤ (changed (start []) [(0, 0xFD)] []).cfg.memSize ∧
    ∃ t, exec (.store 0 1) (changed (start []) [(0, 0xFD)] []) = .next t ∧ t.cfg = t.cfg ∧ SameMemory t t ∧
      t.get 0 = (changed (start []) [(0, 0xFD)] []).get 0 :=
  ⟨by decide, _, rfl, rfl, fun _ => rfl, by decide⟩

/-- Both sides of the window at 0x20: the three bytes below it and the three above. -/
theorem witness_StoreWithTheQuirkIsFetchedAgain :
    (start []).cfg.Valid ∧ (start []).cfg.storeAdvancesPp = false ∧
    (changed (start [0x16, 0x00, 0x01]) [(0, 0x1D)] []).fetchInstr = .ok (.store 0 1) ∧
    0x1D + 3 ≤ 256 ∧ 0x1D + 3 ≤ (start []).pp.toNat ∧ (start []).pp.toNat + 6 ≤ 0x26 ∧ 0x26 + 3 ≤ 256 :=
  ⟨by decide, by decide, rfl, by decide, by decide, by decide, by decide⟩

/-- Each clause at its boundary: sp = 4 and sp = 0x101 reach the lowest and highest slots, sp = 3 and sp = 0x102 do not. -/
theorem witness_PushWritesBelowSp :
    (start []).cfg.Valid ∧
    (to32 (((changed (start []) [(16, 4)] []).sp.toNat : Int) - 4)).toNat + 3 ≤ 256 ∧
    (to32 (((changed (start []) [(16, 0x101)] []).sp.toNat : Int) - 4)).toNat + 3 ≤ 256 ∧
    256 < (to32 (((changed (start []) [(16, 3)] []).sp.toNat : Int) - 4)).toNat + 3 ∧
    256 < (to32 (((changed (start []) [(16, 0x102)] []).sp.toNat : Int) - 4)).toNat + 3 := by decide

theorem witness_PopReadsAtSp :
    (start []).cfg.Valid ∧ (changed (start []) [(16, 0xFD)] []).sp.toNat + 3 ≤ 256 ∧
    256 < (changed (start []) [(16, 0xFE)] []).sp.toNat + 3 := by decide

theorem witness_PopAfterPushRestoresSp :
    (start []).cfg.Valid ∧ (to32 (((start []).sp.toNat : Int) - 4)).toNat + 3 ≤ (start []).cfg.memSize := by decide

/-- P7 of `95_test_vectors.md`: push r0 at 0x12 with sp = 0x18 and r0 = 0x000E0102, so `mv r1, r2` is pushed at 0x14. -/
theorem witness_PushedInstructionIsFetchedNext :
    (changed (startAt 0x12 []) [(16, 0x18), (0, 0x000E0102)] []).cfg.Valid ∧ (0 : RegIdx) ≠ RegMap.reference.sp ∧
    Instr.wellFormed (.mv 1 2) = true ∧ encode OpcodeMap.reference (.mv 1 2) = [0x0E, 0x01, 0x02] ∧
    ((changed (startAt 0x12 []) [(16, 0x18), (0, 0x000E0102)] []).get 0).toNat % 2 ^ 24 =
      (0x0E : Byte).toNat * 65536 + (0x01 : Byte).toNat * 256 + (0x02 : Byte).toNat ∧
    ∃ t, exec (.push 0) (changed (startAt 0x12 []) [(16, 0x18), (0, 0x000E0102)] []) = .next t ∧ t.pp = t.sp ∧
      t.pp.toNat + 6 ≤ t.cfg.memSize :=
  ⟨by decide, by decide, by decide, by decide, by decide, _, rfl, by decide, by decide⟩

/-- Each jump's condition holds in some state and fails in another. -/
theorem witness_conditional_jumps :
    FlagSet (changed (start []) [(17, 4)] []) .equal ∧ ¬ FlagSet (start []) .equal ∧
    FlagSet (changed (start []) [(17, 2)] []) .less ∧ ¬ FlagSet (start []) .less := by
  unfold FlagSet; decide

theorem witness_JumpsAfterCmpDecideTheSignedOrder :
    (start []).cfg.Valid ∧ ∃ t, exec (.cmp 0 1) (changed (start []) [(0, 0x80000000), (1, 0x7FFFFFFF)] []) = .next t :=
  ⟨by decide, _, rfl⟩

/-- div writes rd and rd + 1 and pp, so r7 stays; a push changes sp and pp, so fl stays. -/
theorem witness_RegistersChangeOnlyAsDestinations :
    (∃ t, exec (.div 5 3 4) (changed (start []) [(4, 1)] []) = .next t) ∧ (7 : RegIdx).val ∉ destinations (.div 5 3 4) ∧
    ¬ implicitWrites Config.reference (.div 5 3 4) 7 ∧
    (∃ t, exec (.push 0) (start []) = .next t) ∧ ¬ implicitWrites Config.reference (.push 0) 17 := by
  refine ⟨⟨_, rfl⟩, by decide, ?_, ⟨_, rfl⟩, ?_⟩ <;> unfold implicitWrites <;> decide

theorem witness_ReservedFlagsHaveNoProducer :
    (start []).cfg.Valid ∧ (∃ t, exec (.cmp 0 1) (changed (start []) [(17, 0xFFFFFFFF)] []) = .next t) ∧
    Flag.overflow ∈ [Flag.overflow, .ciae, .cibe, .eiae, .eibe] ∧ Flag.eibe ∈ [Flag.overflow, .ciae, .cibe, .eiae, .eibe] ∧
    (start []).cfg.regMap.fl.val ∉ destinations (.cmp 0 1) := ⟨by decide, ⟨_, rfl⟩, by decide, by decide, by decide⟩

/-- The last of the three bytes a store writes. -/
theorem witness_MemoryChangesOnlyUnderStoreAndPush :
    ∃ t, exec (.store 0 1) (changed (start []) [(0, 0xFD), (1, 5)] []) = .next t ∧
      Memory.read t.mem 0xFF ≠ Memory.read (changed (start []) [(0, 0xFD), (1, 5)] []).mem 0xFF := ⟨_, rfl, by decide⟩

theorem witness_EveryStepKeepsTheInvariant :
    (start [0x12, 0x00]).Inv ∧ ∃ t, step (start [0x12, 0x00]) = .next t := ⟨by decide, _, rfl⟩

/-- Valid parameters at both ends of MEMSIZE, and with another order of the special registers. -/
theorem witness_ResetSatisfiesTheInvariant :
    Config.Valid { Config.reference with memSize := 4 } ∧ Config.Valid { Config.reference with memSize := 2 ^ 32 } ∧
    Config.Valid { Config.reference with regMap := { RegMap.reference with pp := 0, sp := 1, fl := 2 } } := by decide

theorem witness_ResetStateIsComplete : Config.reference.Valid := by decide

/-- Each clause at its boundary: 3 and 2^32 + 1 outside, 4 and 2^32 inside. -/
theorem witness_ConstructionRefusesMemoryOutsideTheBounds :
    { Config.reference with memSize := 3 }.memSize < 4 ∧ 2 ^ 32 < { Config.reference with memSize := 2 ^ 32 + 1 }.memSize ∧
    (4 ≤ 4 ∧ 4 ≤ 2 ^ 32) ∧ 4 ≤ 2 ^ 32 ∧ 2 ^ 32 ≤ 2 ^ 32 := by decide

/-- Each clause at its boundary: an image of MEMSIZE bytes, and one byte more. -/
theorem witness_ImageLoadWritesTheImageAtZero :
    (List.replicate 256 (0 : Byte)).length ≤ State.reset.cfg.memSize ∧
    State.reset.cfg.memSize < (List.replicate 257 (0 : Byte)).length := by
  rw [List.length_replicate, List.length_replicate]; decide

theorem witness_FirstStepStartsAtZero :
    Config.reference.Valid ∧ (List.replicate 256 (0 : Byte)).length ≤ Config.reference.memSize := by
  rw [List.length_replicate]; decide

theorem witness_InspectionShowsAllRegistersAndMemory : 0xFF < State.reset.cfg.memSize ∧ State.reset.cfg.Valid := by decide

/-- The reset state itself, and the last window of its memory. -/
theorem witness_ZeroedMemoryRunsAdd :
    State.reset.cfg.opcodeMap = OpcodeMap.reference ∧
    State.reset.cfg.regMap.pp = 15 ∧ State.reset.cfg.regMap.sp = 16 ∧ State.reset.cfg.regMap.fl = 17 ∧
    State.reset.pp.toNat + 6 ≤ State.reset.cfg.memSize ∧ (∀ k < 6, windowByte State.reset k = 0) ∧
    (startAt 0xFA []).pp.toNat + 6 ≤ (startAt 0xFA []).cfg.memSize ∧ (∀ k < 6, windowByte (startAt 0xFA []) k = 0) := by
  decide

end Sys2Proof.Tests
end

section
/-! PROOFS. Construction (R5 to R8 of `00_scope.md`): what `Config.Valid` asks, written out without its lists, and what
`construct` answers on either side of it. -/

namespace Sys2Proof

/-! ### The admitted parameters -/

theorem Mnemonic.nodup_all : Mnemonic.all.Nodup := by decide

theorem Flag.nodup_all : Flag.all.Nodup := by decide

/-- R6: the codes of the list of mnemonics do not repeat exactly when OPCODE_MAP is injective. -/
theorem OpcodeMap.nodup_codes_iff {o : OpcodeMap} :
    (Mnemonic.all.map o.code).Nodup ↔ ∀ m n : Mnemonic, o.code m = o.code n → m = n :=
  ⟨fun h m n => inj_of_nodup_map h m.mem_all n.mem_all, fun h => Mnemonic.nodup_all.map h⟩

/-- R8: the bits of the list of flags do not repeat exactly when FLAG_BIT is injective. -/
theorem FlagMap.nodup_bits_iff {b : FlagMap} :
    (Flag.all.map b.bit).Nodup ↔ ∀ f g : Flag, b.bit f = b.bit g → f = g :=
  ⟨fun h f g => inj_of_nodup_map h f.mem_all g.mem_all, fun h => Flag.nodup_all.map h⟩

/-- R7: the list of the three special indices has no repeat exactly when they differ in pairs. -/
theorem RegMap.nodup_special_iff {r : RegMap} :
    [r.pp, r.sp, r.fl].Nodup ↔ r.pp ≠ r.sp ∧ r.pp ≠ r.fl ∧ r.sp ≠ r.fl := by
  simp [and_assoc]

/-- R5 to R8 as separate conditions. -/
theorem Config.valid_iff {c : Config} :
    c.Valid ↔ 4 ≤ c.memSize ∧ c.memSize ≤ 2 ^ 32 ∧
      (∀ m n : Mnemonic, c.opcodeMap.code m = c.opcodeMap.code n → m = n) ∧
      c.regMap.pp ≠ c.regMap.sp ∧ c.regMap.pp ≠ c.regMap.fl ∧ c.regMap.sp ≠ c.regMap.fl ∧
      ∀ f g : Flag, c.flagMap.bit f = c.flagMap.bit g → f = g := by
  rw [Config.Valid, OpcodeMap.nodup_codes_iff, RegMap.nodup_special_iff, FlagMap.nodup_bits_iff]
  simp only [and_assoc]

/-- Parameters that are not admitted break one of R5 to R8. -/
theorem Config.not_valid_iff {c : Config} :
    ¬ c.Valid ↔ c.memSize < 4 ∨ 2 ^ 32 < c.memSize ∨
      (∃ m n : Mnemonic, m ≠ n ∧ c.opcodeMap.code m = c.opcodeMap.code n) ∨
      c.regMap.pp = c.regMap.sp ∨ c.regMap.pp = c.regMap.fl ∨ c.regMap.sp = c.regMap.fl ∨
      ∃ f g : Flag, f ≠ g ∧ c.flagMap.bit f = c.flagMap.bit g := by
  simp only [Config.valid_iff, not_and_or, not_le, not_forall, not_not, exists_prop, ne_eq, and_comm (b := _ = _)]

/-- MEMSIZE is admitted apart from the maps: any size in its bounds may stand in admitted parameters (R5). -/
theorem Config.Valid.with_memSize {c : Config} (h : c.Valid) {n : Nat} (h4 : 4 ≤ n) (h32 : n ≤ 2 ^ 32) :
    { c with memSize := n }.Valid :=
  ⟨⟨h4, h32⟩, h.2⟩

theorem Config.reference_valid : Config.reference.Valid := by decide

end Sys2Proof

namespace Sys2Proof.Machine

/-! ### Construction -/

theorem construct_of_valid {c : Config} (h : c.Valid) : construct c = some (State.resetWith c) := if_pos h

theorem construct_of_not_valid {c : Config} (h : ¬ c.Valid) : construct c = none := if_neg h

/-- Settles O51: a MEMSIZE outside the bounds is not valid, and the reference maps are valid with every MEMSIZE inside. -/
theorem constructionRefusesMemoryOutsideTheBounds : Obligations.ConstructionRefusesMemoryOutsideTheBounds := by
  refine ⟨fun c hout => ?_, fun n h4 h32 => ?_⟩
  · have hinvalid : ¬ c.Valid := Config.not_valid_iff.mpr (hout.imp_right Or.inl)
    exact construct_of_not_valid hinvalid
  · exact construct_of_valid (Config.reference_valid.with_memSize h4 h32)

/-- Settles O56, by cases on whether the parameters are valid. -/
theorem constructionSucceedsExactlyForAdmittedParameters :
    Obligations.ConstructionSucceedsExactlyForAdmittedParameters := by
  intro c
  by_cases h : c.Valid
  · exact .inl ⟨construct_of_valid h, Config.valid_iff.mp h⟩
  · exact .inr ⟨construct_of_not_valid h, Config.not_valid_iff.mp h⟩

end Sys2Proof.Machine
end

section
/-! PROOFS. What the state keeps (`10_state.md`): the invariant at reset and at every step (R27, R29, R30), the registers an
instruction does not write (R14, R17, R19, R22) and the reserved flags (R23). -/

namespace Sys2Proof.Machine

open Sys2Proof.Claims

variable {s t : State} {i : Instr} {r rd ra rb : RegIdx} {v : Word} {n : Nat} {f : Flag}

/-! ### The invariant -/

theorem MemoryStep.wf (h : MemoryStep s t) (hw : Memory.wf s.mem = true) : Memory.wf t.mem = true := by
  obtain hm | ⟨a, w, -, hm⟩ := h
  · rwa [hm]
  · rw [hm]; exact Memory.wf_writeBytes _ a hw

theorem MemoryStep.below (h : MemoryStep s t) (hb : Memory.below s.cfg.memSize s.mem = true) :
    Memory.below s.cfg.memSize t.mem = true := by
  obtain hm | ⟨a, w, ha, hm⟩ := h
  · rwa [hm]
  · rw [hm]; exact Memory.below_writeBytes _ ha hb

theorem exec_keeps_inv (hs : s.Inv) (h : exec i s = .next t) : t.Inv := by
  obtain ⟨hvalid, hwf, hbelow⟩ := hs
  obtain ⟨hcfg, hmem⟩ := exec_next h
  rw [State.Inv, hcfg]
  exact ⟨hvalid, hmem.wf hwf, hmem.below hbelow⟩

/-- Settles O49: a step that completes is a completed exec, which keeps the parameters and writes only inside memory. -/
theorem everyStepKeepsTheInvariant : Obligations.EveryStepKeepsTheInvariant := by
  intro s t hs h
  obtain ⟨i, -, hexec⟩ := step_next h
  exact ⟨exec_keeps_inv hs hexec, (exec_next hexec).1⟩

theorem resetWith_inv {c : Config} (h : c.Valid) : (State.resetWith c).Inv := ⟨h, rfl, rfl⟩

/-- Settles O48: the memory after reset lists no byte, so validity of the parameters is all there is to show. -/
theorem resetSatisfiesTheInvariant : Obligations.ResetSatisfiesTheInvariant :=
  ⟨resetWith_inv Config.reference_valid, fun _ => resetWith_inv⟩

/-! ### The guards of an instruction that completes -/

theorem inRange_of_exec_load (h : exec (.load rd ra) s = .next t) : (s.get ra).toNat + 3 ≤ s.cfg.memSize := by
  by_contra hout
  cases (exec_load_fault (by omega)).symm.trans h

theorem inRange_of_exec_store (h : exec (.store rd ra) s = .next t) : (s.get rd).toNat + 3 ≤ s.cfg.memSize := by
  by_contra hout
  cases (exec_store_fault (by omega)).symm.trans h

theorem inRange_of_exec_push (h : exec (.push rd) s = .next t) : (s.sp - 4).toNat + 3 ≤ s.cfg.memSize := by
  by_contra hout
  cases (exec_push_fault (by omega)).symm.trans h

theorem inRange_of_exec_pop (h : exec (.pop rd) s = .next t) : s.sp.toNat + 3 ≤ s.cfg.memSize := by
  by_contra hout
  cases (exec_pop_fault (by omega)).symm.trans h

theorem lt_of_exec_div (h : exec (.div rd ra rb) s = .next t) : rd.val < 17 := by
  by_contra hlast
  cases (exec_div_last (by omega)).symm.trans h

theorem ne_zero_of_exec_div (h : exec (.div rd ra rb) s = .next t) : s.get rb ≠ 0 := fun hzero => by
  cases (exec_div_zero (lt_of_exec_div h) hzero).symm.trans h

/-! ### The registers each shape of instruction leaves as they were -/

section Frame

variable (hpp : r ≠ s.cfg.regMap.pp)
include hpp

theorem writeResult_get (h : s.writeResult rd v n = .next t) (hrd : r ≠ rd) : t.get r = s.get r := by
  cases h
  rw [get_writeResult, if_neg hpp, if_neg hrd]

theorem jumpIf_get {taken : Bool} (h : s.jumpIf taken rd = .next t) : t.get r = s.get r := by
  obtain ⟨u, hu, -, -, hget⟩ := jumpIf_next (s := s) (rd := rd) taken
  cases hu.symm.trans h
  rw [hget, if_neg hpp]

theorem exec_cmp_get (h : exec (.cmp rd ra) s = .next t) (hfl : r ≠ s.cfg.regMap.fl) : t.get r = s.get r := by
  cases h
  simp [State.get_advance, State.get_setFlag, hpp, hfl]

theorem exec_div_get (h : exec (.div rd ra rb) s = .next t) (hrd : r ≠ rd) (hrd1 : r.val ≠ rd.val + 1) :
    t.get r = s.get r := by
  have hlt := lt_of_exec_div h
  have hb : (s.get rb).toInt ≠ 0 := fun e => ne_zero_of_exec_div h (BitVec.toInt_inj.mp e)
  have hne : r ≠ ⟨rd.val + 1, by omega⟩ := fun e => hrd1 (congrArg Fin.val e)
  cases (exec_div_ok (rd1 := ⟨rd.val + 1, by omega⟩) rfl hb).symm.trans h
  simp [State.get_advance, State.get_set, hpp, hrd, hne]

theorem exec_load_get (h : exec (.load rd ra) s = .next t) (hrd : r ≠ rd) : t.get r = s.get r := by
  obtain ⟨w, -, hw⟩ := exec_load_ok (rd := rd) (inRange_of_exec_load h)
  exact writeResult_get hpp (hw.symm.trans h) hrd

theorem exec_store_get (h : exec (.store rd ra) s = .next t)
    (hsp : s.cfg.storeAdvancesPp = false → r ≠ s.cfg.regMap.sp) : t.get r = s.get r := by
  obtain ⟨u, rfl, hu⟩ := exec_store_ok (ra := ra) (inRange_of_exec_store h)
  cases hu.symm.trans h
  split
  · simp [State.get_advance, hpp]
  · next hquirk => simp [State.get_setSp, hsp (Bool.eq_false_of_not_eq_true hquirk)]

theorem exec_push_get (h : exec (.push rd) s = .next t) (hsp : r ≠ s.cfg.regMap.sp) : t.get r = s.get r := by
  cases (exec_push_ok (inRange_of_exec_push h)).symm.trans h
  simp [State.get_advance, State.get_setSp, hpp, hsp]

theorem exec_pop_get (h : exec (.pop rd) s = .next t) (hrd : r ≠ rd) (hsp : r ≠ s.cfg.regMap.sp) :
    t.get r = s.get r := by
  obtain ⟨w, -, hw⟩ := exec_pop_ok (rd := rd) (inRange_of_exec_pop h)
  cases hw.symm.trans h
  simp [State.get_advance, State.get_setSp, State.get_set, hpp, hsp, hrd]

end Frame

/-- Settles O45, by cases on the instruction: each is of a shape whose frame is known. -/
theorem registersChangeOnlyAsDestinations : Obligations.RegistersChangeOnlyAsDestinations := by
  intro s t i r h hdest himpl
  have hpp : r ≠ s.cfg.regMap.pp := fun e => himpl (.inl e)
  have hrd : ∀ rd : RegIdx, rd.val ∈ destinations i → r ≠ rd := fun rd hmem e => hdest (e ▸ hmem)
  cases i with
  | add | and | or | sub | mul | not | mv | shl | shr | shra | li => exact writeResult_get hpp h (hrd _ (.head _))
  | jeq | jnq | jlt | jge | jgt | jle => exact jumpIf_get hpp h
  | jmp => cases h; rw [State.get_setPp, if_neg hpp]
  | cmp => exact exec_cmp_get hpp h fun e => himpl (.inr (.inr ⟨e, rfl⟩))
  | div => exact exec_div_get hpp h (hrd _ (.head _)) fun e => hdest (e ▸ .tail _ (.head _))
  | load => exact exec_load_get hpp h (hrd _ (.head _))
  | store =>
    exact exec_store_get hpp h fun hquirk e => himpl (.inr (.inl ⟨e, .inr (.inr ⟨rfl, hquirk⟩)⟩))
  | push => exact exec_push_get hpp h fun e => himpl (.inr (.inl ⟨e, .inl rfl⟩))
  | pop => exact exec_pop_get hpp h (hrd _ (.head _)) fun e => himpl (.inr (.inl ⟨e, .inr (.inl rfl)⟩))

/-! ### The reserved flags -/

theorem flagSet_iff_flag : FlagSet s f ↔ s.flag f = true := Iff.rfl

theorem eq_cmp_of_mnemonic (h : i.mnemonic = .cmp) : ∃ rd ra, i = .cmp rd ra := by
  cases i with
  | cmp rd ra => exact ⟨rd, ra, rfl⟩
  | _ => cases h

/-- cmp writes the two bits of LESS and EQUAL; the other flags have other bits (R8, R120). -/
theorem exec_cmp_flag (hvalid : s.cfg.Valid) (h : exec (.cmp rd ra) s = .next t) (hless : f ≠ .less)
    (hequal : f ≠ .equal) : t.flag f = s.flag f := by
  cases h
  rw [flag_advance (s := (s.setFlag _ _).setFlag _ _) hvalid]
  simp [flag_setFlag, mt hvalid.bit_inj hequal, mt hvalid.bit_inj hless]

/-- Only cmp writes fl without naming it: pp and sp are other registers (R7, R22). -/
theorem exec_fl (hvalid : s.cfg.Valid) (h : exec i s = .next t) (hcmp : i.mnemonic ≠ .cmp)
    (hdest : s.cfg.regMap.fl.val ∉ destinations i) : t.fl = s.fl := by
  have himpl : ¬ implicitWrites s.cfg i s.cfg.regMap.fl := by
    rintro (hpp | ⟨hsp, -⟩ | ⟨-, hmnem⟩)
    · exact hvalid.pp_ne_fl hpp.symm
    · exact hvalid.sp_ne_fl hsp.symm
    · exact hcmp hmnem
  rw [State.fl, (exec_next h).1]
  exact registersChangeOnlyAsDestinations s t i _ h hdest himpl

/-- Settles O46: cmp writes two other bits of fl, and every other instruction keeps all of it. -/
theorem reservedFlagsHaveNoProducer : Obligations.ReservedFlagsHaveNoProducer := by
  intro s t i f hvalid h hreserved hdest
  suffices hflag : t.flag f = s.flag f by rw [flagSet_iff_flag, flagSet_iff_flag, hflag]
  by_cases hcmp : i.mnemonic = .cmp
  · obtain ⟨rd, ra, rfl⟩ := eq_cmp_of_mnemonic hcmp
    have hless : f ≠ .less := by rintro rfl; simp at hreserved
    have hequal : f ≠ .equal := by rintro rfl; simp at hreserved
    exact exec_cmp_flag hvalid h hless hequal
  · rw [State.flag, State.flag, exec_fl hvalid h hcmp hdest, (exec_next h).1]

end Sys2Proof.Machine
end

section
/-! PROOFS. Memory (`20_memory.md`): the bytes an instruction writes and where (R48, R51), and a pushed instruction that is
the next one fetched (R59). -/

namespace Sys2Proof

variable {c : Config} {i : Instr} {b0 b1 b2 : Byte}

/-! ### Decoding three bytes -/

/-- Format F3 read back: the two index bytes of two registers give those registers (R73, R76). -/
theorem decodeF3_regByte (mk : RegIdx → RegIdx → Instr) (rd ra : RegIdx) (b0 b3 b4 b5 : Byte) :
    decodeF3 mk ⟨b0, regByte rd, regByte ra, b3, b4, b5⟩ = .ok (mk rd ra) := by
  simp [decodeF3, rdOf, raOf]

/-- Only an instruction of format F3 has three bytes. They decode to it whatever bytes follow them (R76, R80). -/
theorem decode_of_encode_three (hvalid : c.Valid) (h : encode c.opcodeMap i = [b0, b1, b2]) (b3 b4 b5 : Byte) :
    decode c.opcodeMap ⟨b0, b1, b2, b3, b4, b5⟩ = .ok i := by
  cases i with
  | cmp | load | mv | not | store =>
    cases h
    rw [decode_of_code hvalid rfl]
    exact decodeF3_regByte ..
  | _ => simp [encode, operandBytes, wordBytes] at h

end Sys2Proof

namespace Sys2Proof.Machine

open Sys2Proof.Claims

variable {s t : State} {i : Instr} {rd ra rb : RegIdx} {v : Word} {b0 b1 b2 : Byte}

/-! ### The memory after each instruction that can fault -/

theorem exec_div_mem (h : exec (.div rd ra rb) s = .next t) : t.mem = s.mem := by
  have hlt := lt_of_exec_div h
  have hb : (s.get rb).toInt ≠ 0 := fun e => ne_zero_of_exec_div h (BitVec.toInt_inj.mp e)
  cases (exec_div_ok (rd1 := ⟨rd.val + 1, by omega⟩) rfl hb).symm.trans h
  rfl

theorem exec_load_mem (h : exec (.load rd ra) s = .next t) : t.mem = s.mem := by
  obtain ⟨w, -, hw⟩ := exec_load_ok (rd := rd) (inRange_of_exec_load h)
  cases hw.symm.trans h
  rfl

theorem exec_pop_mem (h : exec (.pop rd) s = .next t) : t.mem = s.mem := by
  obtain ⟨w, -, hw⟩ := exec_pop_ok (rd := rd) (inRange_of_exec_pop h)
  cases hw.symm.trans h
  rfl

theorem exec_store_mem (h : exec (.store rd ra) s = .next t) :
    t.mem = Memory.writeBytes s.mem (s.get rd).toNat (bytes24 (low24 (s.get ra))) := by
  obtain ⟨u, rfl, hu⟩ := exec_store_ok (ra := ra) (inRange_of_exec_store h)
  cases hu.symm.trans h
  split <;> rfl

theorem exec_push_mem (h : exec (.push rd) s = .next t) :
    t.mem = Memory.writeBytes s.mem (s.sp - 4).toNat (bytes24 (low24 ((s.setSp (s.sp - 4)).get rd))) := by
  cases (exec_push_ok (inRange_of_exec_push h)).symm.trans h
  rfl

/-! ### Where memory changes -/

/-- The address push stores to, in the spec's integers (R140). -/
theorem to32_toNat_sub_four (v : Word) : to32 ((v.toNat : Int) - 4) = v - 4 := by
  rw [to32_sub, to32_toNat]
  rfl

/-- `MemoryStep` with the instruction named: memory stays, or a store or push writes three bytes at its data address. -/
theorem exec_mem (h : exec i s = .next t) : t.mem = s.mem ∨
    (i.mnemonic = .store ∨ i.mnemonic = .push) ∧
      ∃ (a : Nat) (w : Word24), dataAddress s i = some a ∧ t.mem = Memory.writeBytes s.mem a (bytes24 w) := by
  cases i with
  | add | and | or | sub | mul | not | mv | shl | shr | shra | li => exact .inl (writeResult_inv h).2
  | jeq | jnq | jlt | jge | jgt | jle => exact .inl (jumpIf_inv h).2
  | cmp | jmp => cases h; exact .inl rfl
  | div => exact .inl (exec_div_mem h)
  | load => exact .inl (exec_load_mem h)
  | pop => exact .inl (exec_pop_mem h)
  | store => exact .inr ⟨.inl rfl, _, _, rfl, exec_store_mem h⟩
  | push => exact .inr ⟨.inr rfl, _, _, rfl, to32_toNat_sub_four s.sp ▸ exec_push_mem h⟩

/-- Settles O47: the one write of memory an instruction makes leaves every byte outside its three as it was. -/
theorem memoryChangesOnlyUnderStoreAndPush : Obligations.MemoryChangesOnlyUnderStoreAndPush := by
  intro s t i x h hchanged
  obtain hsame | ⟨hmnem, a, w, ha, hmem⟩ := exec_mem h
  · exact absurd (congrArg (Memory.read · x) hsame) hchanged
  · refine ⟨hmnem, a, ha, ?_⟩
    by_contra hout
    rw [hmem, Memory.read_writeBytes] at hchanged
    exact hchanged (if_neg hout)

/-! ### The bytes a push writes, fetched -/

/-- Three bytes put together and taken apart again (R43). -/
theorem bytes24_append (b0 b1 b2 : Byte) : bytes24 (b0 ++ b1 ++ b2) = [b0, b1, b2] := by
  have h0 := b0.isLt
  have h1 := b1.isLt
  have h2 := b2.isLt
  simp only [bytes24, List.cons.injEq, and_true, ← BitVec.toNat_inj, BitVec.extractLsb'_toNat, toNat_append3,
    Nat.shiftRight_eq_div_pow]
  omega

/-- The three bytes kept of a register whose low 24 bits are the number of those bytes (R43, R49). -/
theorem bytes24_low24 (h : v.toNat % 2 ^ 24 = b0.toNat * 65536 + b1.toNat * 256 + b2.toNat) :
    bytes24 (low24 v) = [b0, b1, b2] := by
  have hword : low24 v = b0 ++ b1 ++ b2 := BitVec.eq_of_toNat_eq <| by
    rw [toNat_append3, ← h, low24, BitVec.extractLsb'_toNat, Nat.shiftRight_zero]
  rw [hword, bytes24_append]

theorem exec_push_sp (hvalid : s.cfg.Valid) (h : exec (.push rd) s = .next t) : t.sp = s.sp - 4 := by
  cases (exec_push_ok (inRange_of_exec_push h)).symm.trans h
  rw [sp_advance (s := (s.setSp _).setMem _) hvalid, State.sp_setMem, State.sp_setSp]

/-- A window that begins with three bytes just written there ends with three old ones. -/
theorem decodeBytes_readBytes_writeBytes_three (o : OpcodeMap) (m : Memory) (a : Nat) (b0 b1 b2 : Byte) :
    decodeBytes o (Memory.readBytes (Memory.writeBytes m a [b0, b1, b2]) a 6) =
      decode o ⟨b0, b1, b2, Memory.read m (a + 3), Memory.read m (a + 4), Memory.read m (a + 5)⟩ := by
  simp [decodeBytes_readBytes, Memory.read_writeBytes]

/-- A step whose window is in memory and decodes is exec of what it decodes to (R175). -/
theorem step_of_decodeBytes (hrange : s.pp.toNat + 6 ≤ s.cfg.memSize)
    (h : decodeBytes s.cfg.opcodeMap (Memory.readBytes s.mem s.pp.toNat 6) = .ok i) : step s = exec i s := by
  have hfetch : s.fetchInstr = .ok i := by rw [fetchInstr_inRange hrange, h]
  rw [step, hfetch]

/-- Settles O36: the push leaves the three bytes at the new sp, where pp points, and three bytes decode to the instruction
they encode. -/
theorem pushedInstructionIsFetchedNext : Obligations.PushedInstructionIsFetchedNext := by
  intro s t rd i b0 b1 b2 hvalid hrd _ hencode hvalue hpush hpp hrange
  have hcfg : t.cfg = s.cfg := (exec_next hpush).1
  have hmem : t.mem = Memory.writeBytes s.mem t.pp.toNat [b0, b1, b2] := by
    rw [exec_push_mem hpush, State.get_setSp, if_neg hrd, bytes24_low24 hvalue, hpp, exec_push_sp hvalid hpush]
  refine step_of_decodeBytes (hcfg ▸ hrange) ?_
  rw [hcfg, hmem, decodeBytes_readBytes_writeBytes_three]
  exact decode_of_encode_three hvalid hencode _ _ _

end Sys2Proof.Machine
end

section
/-! PROOFS. Encoding (`30_encoding.md`): the decoder accepts a window as an instruction exactly when the instruction is
well-formed and its bytes are the first of the window (R70 to R78, R80), the lengths (R76, R81), the bytes past the length
(R80, R82), the shift amount (R74) and zeroed memory (R83). -/

namespace Sys2Proof

open Sys2Proof.Claims

variable {c : Config} {o : OpcodeMap} {m : Mnemonic} {i : Instr} {w w' : Window}

/-! ### Well-formed instructions and lengths -/

/-- R78: the type of the operands bounds every index but div's second destination. -/
theorem Instr.wellFormed_iff : i.wellFormed = true ↔ ∀ rd ra rb, i = .div rd ra rb → rd.val + 1 < 18 := by
  cases i with
  | div rd ra rb =>
    have hrd := rd.isLt
    simp only [Instr.wellFormed, Instr.indices, List.all_cons, List.all_nil, Bool.and_true, Fin.is_lt, decide_true,
      Bool.true_and, decide_eq_true_eq, Instr.div.injEq]
    exact ⟨fun h _ _ _ e => e.1 ▸ h, fun h => h rd ra rb ⟨rfl, rfl, rfl⟩⟩
  | _ => simp [Instr.wellFormed, Instr.indices]

theorem length_encode (o : OpcodeMap) (i : Instr) : (encode o i).length = instrLength i := by
  cases i <;> rfl

/-- Settles O4: an encoding is as long as its mnemonic's format, and the lengths of the formats are the table of R76. -/
theorem lengthFollowsFromTheOpcode : Obligations.LengthFollowsFromTheOpcode := by
  intro o i
  rw [length_encode, instrLength]
  cases i.mnemonic <;> rfl

/-! ### From a window to the instruction -/

/-- An accepted window was accepted as the mnemonic its first byte is the code of (R77). -/
theorem decode_ok (h : decode o w = .ok i) : ∃ m, o.code m = w.b0 ∧ decodeAs m w = .ok i := by
  unfold decode at h
  split at h
  · cases h
  · next m hm => exact ⟨m, code_of_selectMnemonic hm, h⟩

theorem decodeBytes_ok {bs : List Byte} (h : decodeBytes o bs = .ok i) : ∃ w, decode o w = .ok i := by
  unfold decodeBytes at h
  split at h
  · cases h
  · exact ⟨_, h⟩

/-- What is decoded as a mnemonic has that mnemonic, is well-formed, and has the window's bytes as its operands. -/
theorem decodeAs_ok (h : decodeAs m w = .ok i) : i.mnemonic = m ∧ i.wellFormed = true ∧
    w.b0 :: operandBytes i = (windowBytes w).take (instrLength i) := by
  cases m with
  | jeq | jge | jgt | jle | jlt | jmp | jnq | pop | push =>
    obtain ⟨rd, hrd, rfl⟩ := decodeF2_ok h
    refine ⟨rfl, Instr.wellFormed_iff.mpr nofun, ?_⟩
    rw [operandBytes, regByte_of_toNat hrd]; rfl
  | cmp | load | mv | not | store =>
    obtain ⟨rd, ra, hrd, hra, rfl⟩ := decodeF3_ok h
    refine ⟨rfl, Instr.wellFormed_iff.mpr nofun, ?_⟩
    rw [operandBytes, regByte_of_toNat hrd, regByte_of_toNat hra]; rfl
  | add | and | mul | or | sub =>
    obtain ⟨rd, ra, rb, hrd, hra, hrb, rfl⟩ := decodeF4R_ok h
    refine ⟨rfl, Instr.wellFormed_iff.mpr nofun, ?_⟩
    rw [operandBytes, regByte_of_toNat hrd, regByte_of_toNat hra, regByte_of_toNat hrb]; rfl
  | div =>
    obtain ⟨rd, ra, rb, hlast, hrd, hra, hrb, rfl⟩ := decodeDiv_ok h
    refine ⟨rfl, Instr.wellFormed_iff.mpr fun _ _ _ e => ?_, ?_⟩
    · cases e; exact hlast
    · rw [operandBytes, regByte_of_toNat hrd, regByte_of_toNat hra, regByte_of_toNat hrb]; rfl
  | shl | shr | shra =>
    obtain ⟨rd, ra, hrd, hra, rfl⟩ := decodeF4S_ok h
    refine ⟨rfl, Instr.wellFormed_iff.mpr nofun, ?_⟩
    rw [operandBytes, regByte_of_toNat hrd, regByte_of_toNat hra]; rfl
  | li =>
    obtain ⟨rd, hrd, rfl⟩ := decodeF6I_ok h
    refine ⟨rfl, Instr.wellFormed_iff.mpr nofun, ?_⟩
    rw [operandBytes, regByte_of_toNat hrd, imm32Of, wordBytes_append]; rfl

/-- Settles O2: the first byte is the code of the mnemonic decoded, the others are the operands' bytes. -/
theorem encodeOfDecodeIsTheWindow : Obligations.EncodeOfDecodeIsTheWindow := by
  intro o w i h
  obtain ⟨m, hcode, hdecode⟩ := decode_ok h
  obtain ⟨hmnem, -, hbytes⟩ := decodeAs_ok hdecode
  rw [encode, hmnem, hcode, hbytes]

/-- Settles O3: bytes are decoded as some mnemonic, and what that answers is well-formed. -/
theorem decodedInstructionsAreWellFormed : Obligations.DecodedInstructionsAreWellFormed := by
  intro o bs i h
  obtain ⟨w, hw⟩ := decodeBytes_ok h
  obtain ⟨m, -, hdecode⟩ := decode_ok hw
  obtain ⟨-, hwf, -⟩ := decodeAs_ok hdecode
  exact hwf

/-! ### From the instruction to its window

One lemma per format besides `decodeF3_regByte`: the index bytes of registers give those registers (R73, R76). -/

section Formats

variable (b0 b1 b2 b3 b4 b5 : Byte) (rd ra rb : RegIdx)

theorem decodeF2_regByte (mk : RegIdx → Instr) : decodeF2 mk ⟨b0, regByte rd, b2, b3, b4, b5⟩ = .ok (mk rd) := by
  simp [decodeF2, rdOf]

theorem decodeF4R_regByte (mk : RegIdx → RegIdx → RegIdx → Instr) :
    decodeF4R mk ⟨b0, regByte rd, regByte ra, regByte rb, b4, b5⟩ = .ok (mk rd ra rb) := by
  simp [decodeF4R, rdOf, raOf, rbOf]

theorem decodeDiv_regByte (h : rd.val + 1 < 18) :
    decodeDiv ⟨b0, regByte rd, regByte ra, regByte rb, b4, b5⟩ = .ok (.div rd ra rb) := by
  simp only [decodeDiv, rdOf, toNat_regByte, checkReg_of_lt h, decodeF4R_regByte]

theorem decodeF4S_regByte (mk : RegIdx → RegIdx → Byte → Instr) (amount : Byte) :
    decodeF4S mk ⟨b0, regByte rd, regByte ra, amount, b4, b5⟩ = .ok (mk rd ra amount) := by
  simp [decodeF4S, rdOf, raOf, rbOf]

theorem decodeF6I_regByte (mk : RegIdx → Word → Instr) (imm : Word) : decodeF6I mk ⟨b0, regByte rd,
    imm.extractLsb' 24 8, imm.extractLsb' 16 8, imm.extractLsb' 8 8, imm.extractLsb' 0 8⟩ = .ok (mk rd imm) := by
  simp only [decodeF6I, rdOf, imm32Of, checkReg_regByte, word_of_wordBytes]

end Formats

/-- A window that begins with the bytes of a well-formed instruction decodes to it (R76, R80). -/
theorem decode_of_encode (hvalid : c.Valid) (hwf : i.wellFormed = true)
    (h : encode c.opcodeMap i = (windowBytes w).take (instrLength i)) : decode c.opcodeMap w = .ok i := by
  obtain ⟨b0, b1, b2, b3, b4, b5⟩ := w
  dsimp only [windowBytes] at h
  cases i with
  | jeq | jge | jgt | jle | jlt | jmp | jnq | pop | push =>
    cases h; rw [decode_of_code hvalid rfl]; exact decodeF2_regByte ..
  | cmp | load | mv | not | store =>
    cases h; rw [decode_of_code hvalid rfl]; exact decodeF3_regByte ..
  | add | and | mul | or | sub =>
    cases h; rw [decode_of_code hvalid rfl]; exact decodeF4R_regByte ..
  | div rd ra rb =>
    have hlast := Instr.wellFormed_iff.mp hwf rd ra rb rfl
    cases h; rw [decode_of_code hvalid rfl]; exact decodeDiv_regByte (h := hlast) ..
  | shl | shr | shra =>
    cases h; rw [decode_of_code hvalid rfl]; exact decodeF4S_regByte ..
  | li rd imm =>
    cases h; rw [decode_of_code hvalid rfl]; exact decodeF6I_regByte (imm := imm) ..

/-- Six bytes or more begin with a window, which is what is decoded (R70). -/
theorem exists_window_of_six_le {bs : List Byte} (h : 6 ≤ bs.length) (o : OpcodeMap) :
    ∃ w tail, bs = windowBytes w ++ tail ∧ decodeBytes o bs = decode o w := by
  match bs, h with
  | b0 :: b1 :: b2 :: b3 :: b4 :: b5 :: tail, _ => exact ⟨⟨b0, b1, b2, b3, b4, b5⟩, tail, rfl, rfl⟩

theorem instrLength_le_six (i : Instr) : instrLength i ≤ 6 := by
  rw [instrLength]
  cases formatOf i.mnemonic <;> decide

/-- Settles O1: no encoding is longer than the window, so the window begins with it. -/
theorem decodeOfEncodeIsTheInstruction : Obligations.DecodeOfEncodeIsTheInstruction := by
  intro c i rest hvalid hwf hlen
  obtain ⟨w, tail, hbytes, hdecode⟩ := exists_window_of_six_le hlen c.opcodeMap
  have hprefix : encode c.opcodeMap i = (windowBytes w).take (instrLength i) := by
    rw [← List.take_append_of_le_length (l₂ := tail) (instrLength_le_six i), ← hbytes, ← length_encode c.opcodeMap,
      List.take_left]
  rw [hdecode, decode_of_encode hvalid hwf hprefix]

/-! ### Bytes past the length -/

/-- Decoding as a mnemonic looks at no byte past the length of its format (R80, R82). -/
theorem decodeAs_congr (h : (windowBytes w).take (formatLength (formatOf m)) =
    (windowBytes w').take (formatLength (formatOf m))) : decodeAs m w = decodeAs m w' := by
  obtain ⟨b0, b1, b2, b3, b4, b5⟩ := w
  obtain ⟨b0', b1', b2', b3', b4', b5'⟩ := w'
  cases m <;> (cases h; rfl)

/-- Settles O5: both windows are decoded as the mnemonic of their common first byte. -/
theorem bytesPastTheLengthAreIgnored : Obligations.BytesPastTheLengthAreIgnored := by
  intro c m w w' hvalid hcode hbytes
  have hfirst : w.b0 = w'.b0 := by
    cases hf : formatOf m <;> (rw [hf] at hbytes; exact (List.cons.inj hbytes).1)
  rw [decode_of_code hvalid hcode, decode_of_code hvalid (hcode.trans hfirst), decodeAs_congr hbytes]

/-! ### Words of the test vectors -/

/-- Settles O6, by running the decoder on the ten words. -/
theorem sampleWordsDecode : Obligations.SampleWordsDecode :=
  ⟨rfl, rfl, rfl, rfl, rfl, rfl, rfl, rfl, rfl, rfl⟩

/-! ### The shift amount -/

/-- Bytes that agree modulo 32 are the same distance (R74). -/
theorem shamtOf_congr {a b : Byte} (h : a.toNat % 32 = b.toNat % 32) : shamtOf a = shamtOf b := by
  rw [shamtOf_eq, shamtOf_eq, h]

end Sys2Proof

namespace Sys2Proof.Machine

open Sys2Proof.Claims

variable {s : State}

/-- Settles O24: the shifts use the amount byte through `shamtOf` alone. -/
theorem shiftAmountCountsModulo32 : Obligations.ShiftAmountCountsModulo32 := by
  intro s rd ra a b h
  have hshamt := shamtOf_congr h
  refine ⟨?_, ?_, ?_⟩
  · rw [exec, exec, execShl, execShl, hshamt]
  · rw [exec, exec, execShr, execShr, hshamt]
  · rw [exec, exec, execShra, execShra, hshamt]

/-! ### Zeroed memory -/

/-- The advance of pp in the spec's integers (R17). -/
theorem add_ofNat_eq_to32 (v : Word) (n : Nat) : v + BitVec.ofNat 32 n = to32 (v.toNat + n) := by
  rw [to32_add, to32_toNat, to32_natCast]

/-- The shape of an instruction with one register result has the effect the rules give it (R17, R109). -/
theorem writeResult_effect (s : State) (rd : RegIdx) (v : Word) (n : Nat) :
    ∃ t, s.writeResult rd v n = .next t ∧ ResultEffect s t rd v n := by
  refine ⟨_, rfl, rfl, fun _ => rfl, fun hrd => ⟨?_, ?_⟩, fun hrd => ?_, fun r hr hpp => ?_⟩
  · rw [get_writeResult, if_neg hrd, if_pos rfl]
  · rw [State.pp_advance, State.pp_set, if_neg hrd.symm, add_ofNat_eq_to32]
  · rw [State.pp_advance, State.pp_set, if_pos hrd.symm, add_ofNat_eq_to32]
  · rw [get_writeResult, if_neg hpp, if_neg hr]

theorem read_eq_zero_of_windowByte {k : Nat} (h : windowByte s k = 0) : Memory.read s.mem (s.pp.toNat + k) = 0 :=
  BitVec.eq_of_toNat_eq h

/-- A window of zeros is `add r0, r0, r0` under the reference OPCODE_MAP (R83). -/
theorem decodeBytes_zero_window (h : ∀ k < 6, windowByte s k = 0) :
    decodeBytes OpcodeMap.reference (Memory.readBytes s.mem s.pp.toNat 6) = .ok (.add 0 0 0) := by
  have hread (k : Nat) (hk : k < 6) := read_eq_zero_of_windowByte (h k hk)
  have hread0 : Memory.read s.mem s.pp.toNat = 0 := hread 0 (by decide)
  rw [decodeBytes_readBytes, hread0, hread 1 (by decide), hread 2 (by decide), hread 3 (by decide), hread 4 (by decide),
    hread 5 (by decide)]
  rfl

/-- Settles O55: the step is `add r0, r0, r0`, whose result is the sum of r0 with itself. -/
theorem zeroedMemoryRunsAdd : Obligations.ZeroedMemoryRunsAdd := by
  intro s hmap _ _ _ hrange hzero
  have hdecode : decodeBytes s.cfg.opcodeMap (Memory.readBytes s.mem s.pp.toNat 6) = .ok (.add 0 0 0) := by
    rw [hmap, decodeBytes_zero_window hzero]
  have hdouble : to32 (2 * (s.get 0).toNat) = s.get 0 + s.get 0 := by
    rw [two_mul, to32_add, to32_toNat]
  rw [step_of_decodeBytes hrange hdecode, hdouble]
  exact writeResult_effect s 0 _ 4

end Sys2Proof.Machine
end

section
/-! PROOFS. Arithmetic, logic, move and shift (`40_alu_move_shift.md`): the word each of the nine instructions computes is
the spec's exact integer taken by `to32`, and writing it has the effect `writeResult_effect` states. -/

namespace Sys2Proof

open Sys2Proof.Claims

/-! ### Encoding -/

/-- An instruction whose operands are registers, followed by whole bytes (an amount, an immediate), is encoded as its code and
these in order (R72, R73, R76). -/
theorem encodedAs {i : Instr} {code : Nat} (regs : List RegIdx) (tail : List Byte)
    (hcode : (OpcodeMap.reference.code i.mnemonic).toNat = code) (hops : operandBytes i = regs.map regByte ++ tail) :
    EncodedAs i i.mnemonic code (regs.map Fin.val ++ tail.map BitVec.toNat) := by
  have hregs : (regs.map regByte).map BitVec.toNat = regs.map Fin.val := by
    rw [List.map_map]; exact List.map_congr_left fun r _ => toNat_regByte r
  exact ⟨fun o => by rw [encode, hops, List.map_cons, List.map_append, hregs], hcode⟩

/-! ### The spec's integers as words -/

/-- The spec's signed value of a word is its two's complement value (`00_scope.md` section 5.1). -/
theorem signed_eq_toInt (v : Word) : signed v = v.toInt := by
  have hhalf : v.toNat < 2 ^ 31 ↔ 2 * v.toNat < 2 ^ 32 := by omega
  rw [BitVec.toInt_eq_toNat_cond, signed]
  simp only [hhalf]; rfl

/-- Subtracting from 0xFFFFFFFF inverts every bit (R104). -/
theorem to32_complement (v : Word) : to32 (0xFFFFFFFF - (v.toNat : Int)) = ~~~ v := by
  rw [to32_sub, to32_toNat]
  exact BitVec.allOnes_sub_eq_not v

/-- Multiplying by a power of two shifts left (R106). -/
theorem to32_mul_two_pow (v : Word) (k : Nat) : to32 (v.toNat * 2 ^ k : Nat) = v <<< k := by
  apply BitVec.eq_of_toNat_eq
  rw [to32_natCast, BitVec.toNat_ofNat, BitVec.toNat_shiftLeft, Nat.shiftLeft_eq]

/-- Dividing the unsigned value by a power of two shifts right with zeros (R107). -/
theorem to32_div_two_pow (v : Word) (k : Nat) : to32 (v.toNat / 2 ^ k : Nat) = v >>> k := by
  rw [← Nat.shiftRight_eq_div_pow, ← BitVec.toNat_ushiftRight, to32_toNat]

/-- Dividing the signed value by a power of two, rounded down, shifts right with copies of the sign (R108). -/
theorem to32_signed_fdiv_two_pow (v : Word) (k : Nat) : to32 ((signed v).fdiv (2 ^ k)) = v.sshiftRight k := by
  have hfloor : v.toInt.fdiv (2 ^ k) = v.toInt >>> k := by
    rw [Int.fdiv_eq_ediv_of_nonneg _ (by positivity), Int.shiftRight_eq_div_pow]; norm_cast
  rw [signed_eq_toInt, hfloor, to32, BitVec.sshiftRight]

end Sys2Proof

namespace Sys2Proof.Machine

open Sys2Proof.Claims

/-! ### The nine instructions

Each meaning is one `writeResult`. -/

/-- Settles O15: the wrapping sum of words is `to32` of the exact one. -/
theorem addWritesTheSum : Obligations.AddWritesTheSum := by
  intro s rd ra rb
  rw [to32_add, to32_toNat, to32_toNat]
  exact ⟨encodedAs [rd, ra, rb] [] rfl rfl, writeResult_effect s rd _ 4⟩

/-- Settles O16: the wrapping difference of words is `to32` of the exact one. -/
theorem subWritesTheDifference : Obligations.SubWritesTheDifference := by
  intro s rd ra rb
  rw [to32_sub, to32_toNat, to32_toNat]
  exact ⟨encodedAs [rd, ra, rb] [] rfl rfl, writeResult_effect s rd _ 4⟩

/-- Settles O17: the word written is the AND of the operands. -/
theorem andWritesTheBitwiseAnd : Obligations.AndWritesTheBitwiseAnd := by
  intro s rd ra rb
  obtain ⟨t, hexec, heffect⟩ := writeResult_effect s rd (s.get ra &&& s.get rb) 4
  exact ⟨encodedAs [rd, ra, rb] [] rfl rfl, t, _, hexec, heffect, fun _ _ => BitVec.getLsbD_and⟩

/-- Settles O18: the word written is the OR of the operands. -/
theorem orWritesTheBitwiseOr : Obligations.OrWritesTheBitwiseOr := by
  intro s rd ra rb
  obtain ⟨t, hexec, heffect⟩ := writeResult_effect s rd (s.get ra ||| s.get rb) 4
  exact ⟨encodedAs [rd, ra, rb] [] rfl rfl, t, _, hexec, heffect, fun _ _ => BitVec.getLsbD_or⟩

/-- Settles O19: the inverted word is the difference from 0xFFFFFFFF. -/
theorem notWritesTheComplement : Obligations.NotWritesTheComplement := by
  intro s rd ra
  rw [to32_complement]
  exact ⟨encodedAs [rd, ra] [] rfl rfl, writeResult_effect s rd _ 3⟩

/-- Settles O20: the word written is the source register's. -/
theorem mvCopiesTheRegister : Obligations.MvCopiesTheRegister := fun s rd ra =>
  ⟨encodedAs [rd, ra] [] rfl rfl, writeResult_effect s rd (s.get ra) 3⟩

/-- Settles O21: the distance is the amount modulo 32, and a left shift is the product with a power of two. -/
theorem shlMultipliesByAPowerOfTwo : Obligations.ShlMultipliesByAPowerOfTwo := by
  intro s rd ra amount
  rw [to32_mul_two_pow, ← shamtOf_eq]
  exact ⟨encodedAs [rd, ra] [amount] rfl rfl, writeResult_effect s rd _ 4⟩

/-- Settles O22: the distance is the amount modulo 32, and a right shift is the unsigned quotient. -/
theorem shrDividesUnsigned : Obligations.ShrDividesUnsigned := by
  intro s rd ra amount
  rw [to32_div_two_pow, ← shamtOf_eq]
  exact ⟨encodedAs [rd, ra] [amount] rfl rfl, writeResult_effect s rd _ 4⟩

/-- Settles O23: the distance is the amount modulo 32, and a right shift of the signed value rounds down. -/
theorem shraDividesSignedRoundingDown : Obligations.ShraDividesSignedRoundingDown := by
  intro s rd ra amount
  rw [to32_signed_fdiv_two_pow, ← shamtOf_eq]
  exact ⟨encodedAs [rd, ra] [amount] rfl rfl, writeResult_effect s rd _ 4⟩

end Sys2Proof.Machine
end

section
/-! PROOFS. Compare, multiply, divide (`41_compare_mul_div.md`): the bits of fl after a cmp (R120), the product without
signedness (R121, R123), and the quotient and remainder of div with its two writes before the advance (R122). -/

namespace Sys2Proof

open Sys2Proof.Claims

/-! ### The remainder of a division rounded toward zero -/

/-- The remainder is smaller than the divisor in magnitude (R122). -/
theorem abs_tmod_lt (a : Int) {b : Int} (hb : b ≠ 0) : |a.tmod b| < |b| := by
  rw [Int.abs_eq_natAbs, Int.abs_eq_natAbs, Int.natAbs_tmod, Nat.cast_lt]
  exact Nat.mod_lt _ (Int.natAbs_pos.mpr hb)

/-- A remainder other than 0 has the sign of the dividend (R122). -/
theorem tmod_neg_iff {a b : Int} (h : a.tmod b ≠ 0) : a.tmod b < 0 ↔ a < 0 := by
  have hdvd : ¬ b ∣ a := fun hdvd => h (Int.tmod_eq_zero_of_dvd hdvd)
  rw [← Int.sign_eq_neg_one_iff_neg, Int.sign_tmod, if_neg hdvd, Int.sign_eq_neg_one_iff_neg]

/-! ### Signed values of words -/

theorem signed_ne_zero {v : Word} (h : v ≠ 0) : signed v ≠ 0 := by
  rw [signed_eq_toInt]
  exact fun hzero => h (BitVec.toInt_inj.mp hzero)

/-- The low 32 bits of an accumulated product do not depend on the signedness of the operands (R121). -/
theorem to32_signed_mulAdd (a b c : Word) :
    to32 (signed a + signed b * signed c) = to32 (a.toNat + b.toNat * c.toNat) := by
  simp only [signed_eq_toInt, to32_add, to32_mul, to32_toInt, to32_toNat]

end Sys2Proof

namespace Sys2Proof.Machine

open Sys2Proof.Claims

variable {s t : State} {rd rd1 ra rb j : RegIdx} {q r : Word} {n : Nat}

/-! ### cmp -/

/-- LESS of cmp is the spec's signed order (R120). -/
theorem cmpLess_iff {a b : Word} : cmpLess a b = true ↔ signed a < signed b := by
  rw [cmpLess, decide_eq_true_iff, signed_eq_toInt, signed_eq_toInt]

/-- EQUAL of cmp is equality of the words (R120). -/
theorem cmpEqual_iff {a b : Word} : cmpEqual a b = true ↔ a = b := by
  rw [cmpEqual, decide_eq_true_iff, BitVec.toInt_inj]

/-- The bits of fl after a cmp: EQUAL and LESS are written, the others are as before (R120). -/
theorem exec_cmp_fl_bit (hvalid : s.cfg.Valid) (h : exec (.cmp rd ra) s = .next t) (k : Fin 32) :
    t.fl.getLsbD k.val = if k = s.cfg.flagMap.bit .equal then cmpEqual (s.get rd) (s.get ra)
      else if k = s.cfg.flagMap.bit .less then cmpLess (s.get rd) (s.get ra) else s.fl.getLsbD k.val := by
  cases h
  rw [fl_advance (s := (s.setFlag _ _).setFlag _ _) hvalid]
  simp only [State.fl_setFlag, State.setFlag_cfg, getLsbD_withBit]

theorem exec_cmp_flag_equal (hvalid : s.cfg.Valid) (h : exec (.cmp rd ra) s = .next t) :
    t.flag .equal = cmpEqual (s.get rd) (s.get ra) := by
  rw [State.flag, (exec_next h).1, exec_cmp_fl_bit hvalid h, if_pos rfl]

theorem exec_cmp_flag_less (hvalid : s.cfg.Valid) (h : exec (.cmp rd ra) s = .next t) :
    t.flag .less = cmpLess (s.get rd) (s.get ra) := by
  have hbits : s.cfg.flagMap.bit .less ≠ s.cfg.flagMap.bit .equal := mt hvalid.bit_inj nofun
  rw [State.flag, (exec_next h).1, exec_cmp_fl_bit hvalid h, if_neg hbits, if_pos rfl]

theorem exec_cmp_pp (hvalid : s.cfg.Valid) (h : exec (.cmp rd ra) s = .next t) : t.pp = to32 (s.pp.toNat + 3) := by
  cases h
  rw [State.pp_advance, pp_setFlag (s := s.setFlag _ _) hvalid, pp_setFlag hvalid, add_ofNat_eq_to32]; rfl

/-- Settles O25: the bits of LESS and EQUAL are two different bits of fl, and fl is not pp. -/
theorem cmpSetsLessAndEqual : Obligations.CmpSetsLessAndEqual := by
  intro s rd ra hvalid
  obtain ⟨t, h⟩ : ∃ t, exec (.cmp rd ra) s = .next t := ⟨_, rfl⟩
  have hmem : SameMemory s t := by cases h; exact fun _ => rfl
  refine ⟨encodedAs [rd, ra] [] rfl rfl, t, h, (exec_next h).1, hmem, ?_, ?_, fun k hless hequal => ?_,
    exec_cmp_pp hvalid h, fun r hfl hpp => exec_cmp_get hpp h hfl⟩
  · rw [flagSet_iff_flag, exec_cmp_flag_less hvalid h, cmpLess_iff]
  · rw [flagSet_iff_flag, exec_cmp_flag_equal hvalid h, cmpEqual_iff]
  · have hbit := exec_cmp_fl_bit hvalid h k
    rwa [if_neg hequal, if_neg hless] at hbit

/-! ### mul -/

/-- Settles O26: the wrapping product and sum of words are `to32` of the exact ones. -/
theorem mulAccumulates : Obligations.MulAccumulates := by
  intro s rd ra rb
  refine ⟨encodedAs [rd, ra, rb] [] rfl rfl, to32_signed_mulAdd _ _ _, ?_⟩
  rw [to32_add, to32_mul, to32_toNat, to32_toNat, to32_toNat]
  exact writeResult_effect s rd _ 4

/-! ### div -/

/-- Two results and an advance, away from PP: the second result is what stays where the two meet. -/
theorem get_writeTwoResults (hpp : j ≠ s.cfg.regMap.pp) : (((s.set rd q).set rd1 r).advance n).get j =
    if j = rd1 then r else if j = rd then q else s.get j := by
  rw [get_writeResult, State.set_cfg, if_neg hpp, State.get_set]

/-- Two results and an advance, at PP: the advance is of what the two writes left there (R17, R122). -/
theorem pp_writeTwoResults : (((s.set rd q).set rd1 r).advance n).pp =
    to32 ((if rd1 = s.cfg.regMap.pp then r else if rd = s.cfg.regMap.pp then q else s.pp).toNat + n) := by
  rw [State.pp_advance, add_ofNat_eq_to32, State.pp_set, State.pp_set, State.set_cfg]
  simp only [eq_comm]

/-- A division that completes writes the quotient, then the remainder, then advances pp (R122). -/
theorem exec_div_signed (h : rd1.val = rd.val + 1) (hb : s.get rb ≠ 0) : exec (.div rd ra rb) s =
    .next (((s.set rd (to32 ((signed (s.get ra)).tdiv (signed (s.get rb))))).set rd1
      (to32 ((signed (s.get ra)).tmod (signed (s.get rb))))).advance 4) := by
  have hb' := signed_ne_zero hb
  simp only [signed_eq_toInt] at hb' ⊢
  rw [exec_div_ok h hb', Int.tmod_def, Int.mul_comm]

/-- Settles O27: the quotient rounded toward zero and its remainder, written in that order; the faults are `exec_div_zero`
and `exec_div_last`. -/
theorem divWritesQuotientAndRemainder : Obligations.DivWritesQuotientAndRemainder := by
  intro s rd ra rb
  refine ⟨encodedAs [rd, ra, rb] [] rfl rfl, fun rd1 h hb => ?_, exec_div_zero, fun h => exec_div_last h.ge⟩
  have hne : rd ≠ rd1 := by rintro rfl; omega
  refine ⟨_, _, (Int.tdiv_mul_add_tmod _ _).symm, abs_tmod_lt _ (signed_ne_zero hb), tmod_neg_iff, _,
    exec_div_signed h hb, rfl, fun _ => rfl, fun hpp => ?_, fun hpp => ?_, ?_, fun x hrd hrd1 hpp => ?_⟩
  · rw [get_writeTwoResults hpp, if_neg hne, if_pos rfl]
  · rw [get_writeTwoResults hpp, if_pos rfl]
  · exact pp_writeTwoResults
  · rw [get_writeTwoResults hpp, if_neg hrd1, if_neg hrd]

end Sys2Proof.Machine
end

section
/-! PROOFS. Load immediate, load, store (`42_li_load_store.md`): a load is the write of the number three bytes are (R131), a
store leaves the low 24 bits of a register in three bytes (R132), and the first reads back what the second left (R133). -/

namespace Sys2Proof

/-! ### The bytes of an immediate -/

/-- The bytes of a word are its digits in base 256, most significant first (R75). -/
theorem map_toNat_wordBytes (v : Word) : (wordBytes v).map BitVec.toNat =
    [v.toNat / 2 ^ 24, v.toNat / 2 ^ 16 % 256, v.toNat / 2 ^ 8 % 256, v.toNat % 256] := by
  have hv := v.isLt
  simp only [wordBytes, List.map_cons, List.map_nil, BitVec.extractLsb'_toNat, Nat.shiftRight_eq_div_pow, List.cons.injEq,
    true_and, and_true]
  omega

end Sys2Proof

namespace Sys2Proof.Machine

open Sys2Proof.Claims

variable {s t u : State} {rd ra : RegIdx} {v : Word} {a : Nat}

/-! ### li -/

/-- Settles O28: the immediate is four bytes of the encoding, and li is one result and an advance by 6. -/
theorem liWritesTheImmediate : Obligations.LiWritesTheImmediate := by
  intro s rd imm
  rw [← map_toNat_wordBytes]
  exact ⟨encodedAs [rd] (wordBytes imm) rfl rfl, writeResult_effect s rd imm 6⟩

/-! ### load -/

/-- Zero extension keeps the number (R49). -/
theorem zext32_eq_to32 (w : Word24) : zext32 w = to32 w.toNat := by
  rw [to32_natCast, BitVec.ofNat_toNat]; rfl

/-- A load inside memory has the effect of writing the number its three bytes are (R131). -/
theorem exec_load_effect (rd : RegIdx) (h : (s.get ra).toNat + 3 ≤ s.cfg.memSize) :
    ∃ t, exec (.load rd ra) s = .next t ∧ ResultEffect s t rd (to32 (wordAt s (s.get ra).toNat)) 3 := by
  obtain ⟨w, hload, hexec⟩ := exec_load_ok (rd := rd) h
  have hword : w.toNat = wordAt s (s.get ra).toNat := by
    rw [State.load24_ok h] at hload
    rw [← Except.ok.inj hload, toNat_append3, wordAt]
  rw [hexec, ← hword, ← zext32_eq_to32]
  exact writeResult_effect s rd _ 3

/-- Settles O29: a load inside memory is `exec_load_effect`, any other is `exec_load_fault`. -/
theorem loadReadsTheWordAtRa : Obligations.LoadReadsTheWordAtRa := fun _ rd ra =>
  ⟨encodedAs [rd, ra] [] rfl rfl, exec_load_effect rd, exec_load_fault⟩

/-! ### store -/

/-- The three bytes kept of a register are its low digits in base 256 (R46, R49). -/
theorem bytes24_low24_eq_ofNat (v : Word) : bytes24 (low24 v) =
    [BitVec.ofNat 8 (v.toNat / 65536), BitVec.ofNat 8 (v.toNat / 256), BitVec.ofNat 8 v.toNat] :=
  bytes24_low24 (by simp only [BitVec.toNat_ofNat]; omega)

/-- Writing the three bytes kept of a register leaves them at the address and every other byte as it was (R46). -/
theorem storedAt_of_mem (h : t.mem = Memory.writeBytes s.mem a (bytes24 (low24 v))) : StoredAt s t a v := by
  rw [bytes24_low24_eq_ofNat] at h
  refine ⟨?_, ?_, ?_, fun x hx => ?_⟩ <;> rw [h, Memory.read_writeBytes]
  · simp
  · simp
  · simp
  · exact if_neg (by simp only [List.length_cons, List.length_nil]; omega)

/-- Settles O30: STORE_ADVANCES_PP chooses the register advanced after the three bytes are written; a store outside memory is
`exec_store_fault`. -/
theorem storeWritesTheWordAtRd : Obligations.StoreWritesTheWordAtRd := by
  intro s rd ra
  refine ⟨encodedAs [rd, ra] [] rfl rfl, fun h => ?_, exec_store_fault⟩
  obtain ⟨u, rfl, hexec⟩ := exec_store_ok (ra := ra) h
  refine ⟨_, hexec, (exec_next hexec).1, storedAt_of_mem (exec_store_mem hexec), fun hadvances => ?_, fun hquirk => ?_⟩
  · rw [if_pos hadvances]
    refine ⟨?_, fun r hpp => ?_⟩
    · rw [State.pp_advance, State.pp_setMem]; exact add_ofNat_eq_to32 s.pp 3
    · rw [State.get_advance, State.setMem_cfg, if_neg hpp, State.get_setMem]
  · rw [if_neg (Bool.eq_false_iff.mp hquirk)]
    refine ⟨?_, fun r hsp => ?_⟩
    · rw [State.sp_setSp]; exact add_ofNat_eq_to32 s.sp 3
    · rw [State.get_setSp, State.setMem_cfg, if_neg hsp, State.get_setMem]

/-! ### A load of what a store wrote -/

/-- The number at an address where the low 24 bits of a word stand is those bits (R133). -/
theorem wordAt_of_storedAt (h : StoredAt s t a v) : wordAt t a = v.toNat % 2 ^ 24 := by
  obtain ⟨h0, h1, h2, -⟩ := h
  rw [wordAt, h0, h1, h2]
  omega

theorem wordAt_of_sameMemory (h : SameMemory t u) : wordAt u a = wordAt t a := by
  rw [wordAt, h, h, h, wordAt]

/-- Settles O31: the store keeps MEMSIZE, so the load completes too, and the number it reads is the one the store left. -/
theorem loadAfterStoreReadsTheLow24Bits : Obligations.LoadAfterStoreReadsTheLow24Bits := by
  intro s rd ra rd2 ra2 h
  obtain ⟨-, hstore, -⟩ := storeWritesTheWordAtRd s rd ra
  obtain ⟨t, hexec, hcfg, hstored, -⟩ := hstore h
  refine ⟨t, hexec, fun u hcfgu hmem haddr => ?_⟩
  have hrange : (u.get ra2).toNat + 3 ≤ u.cfg.memSize := by rwa [haddr, hcfgu, hcfg]
  have hword : wordAt u (u.get ra2).toNat = (s.get ra).toNat % 2 ^ 24 := by
    rw [haddr, wordAt_of_sameMemory hmem, wordAt_of_storedAt hstored]
  rw [← hword]
  exact exec_load_effect rd2 hrange

end Sys2Proof.Machine
end

section
/-! PROOFS. The stack (`43_stack.md`): push as a store of three bytes below sp (R140), pop as a write of the number at sp and
two increments after it (R141), and a pop that takes back what a push left (R142). -/

namespace Sys2Proof

/-- An increment of a word is one of the exact integer the word was taken from. -/
theorem to32_toNat_to32_add (a b : Int) : to32 ((to32 a).toNat + b) = to32 (a + b) := by
  rw [to32_add, to32_toNat, to32_add]

end Sys2Proof

namespace Sys2Proof.Machine

open Sys2Proof.Claims

variable {s t : State} {rd r : RegIdx} {v : Word}

/-! ### push -/

theorem exec_push_pp (hvalid : s.cfg.Valid) (h : exec (.push rd) s = .next t) : t.pp = to32 (s.pp.toNat + 2) := by
  cases (exec_push_ok (inRange_of_exec_push h)).symm.trans h
  rw [State.pp_advance, State.pp_setMem, pp_setSp hvalid]
  exact add_ofNat_eq_to32 s.pp 2

/-- The register push stores is read after sp is lowered, so where it is SP the new sp is stored (R140). -/
theorem exec_push_storedAt (h : exec (.push rd) s = .next t) :
    StoredAt s t (s.sp - 4).toNat (if rd = s.cfg.regMap.sp then s.sp - 4 else s.get rd) := by
  rw [← State.get_setSp]
  exact storedAt_of_mem (exec_push_mem h)

/-- Settles O33: the model's `sp - 4` is the spec's, and a push outside memory is `exec_push_fault`. -/
theorem pushWritesBelowSp : Obligations.PushWritesBelowSp := by
  intro s rd hvalid
  rw [to32_toNat_sub_four]
  refine ⟨encodedAs [rd] [] rfl rfl, fun h => ?_, exec_push_fault⟩
  have hexec := exec_push_ok (rd := rd) h
  exact ⟨_, hexec, (exec_next hexec).1, exec_push_sp hvalid hexec, exec_push_storedAt hexec, exec_push_pp hvalid hexec,
    fun r hsp hpp => exec_push_get hpp hexec hsp⟩

/-! ### pop -/

/-- What a load inside memory writes is the number its three bytes are (R44, R49). -/
theorem zext32_of_load24 {addr : Word} {w : Word24} (hrange : addr.toNat + 3 ≤ s.cfg.memSize)
    (h : s.load24 addr = .ok w) : zext32 w = to32 (wordAt s addr.toNat) := by
  rw [State.load24_ok hrange] at h
  rw [zext32_eq_to32, ← Except.ok.inj h, toNat_append3, wordAt]

/-- The three writes of a pop in their order: rd, then sp from what it then holds, then pp (R141). -/
def popped (s : State) (rd : RegIdx) (v : Word) : State := ((s.set rd v).setSp ((s.set rd v).sp + 4)).advance 2

theorem exec_pop_popped (rd : RegIdx) (h : s.sp.toNat + 3 ≤ s.cfg.memSize) :
    exec (.pop rd) s = .next (popped s rd (to32 (wordAt s s.sp.toNat))) := by
  obtain ⟨w, hload, hexec⟩ := exec_pop_ok (rd := rd) h
  rw [hexec, zext32_of_load24 h hload, popped]

theorem get_popped (hsp : r ≠ s.cfg.regMap.sp) (hpp : r ≠ s.cfg.regMap.pp) :
    (popped s rd v).get r = if r = rd then v else s.get r := by
  rw [popped, State.get_advance, State.setSp_cfg, State.set_cfg, if_neg hpp, State.get_setSp, State.set_cfg, if_neg hsp,
    State.get_set]

theorem sp_popped (hvalid : s.cfg.Valid) :
    (popped s rd v).sp = to32 ((if rd = s.cfg.regMap.sp then v else s.sp).toNat + 4) := by
  rw [popped, sp_advance (s := (s.set rd v).setSp _) hvalid, State.sp_setSp, State.sp_set]
  simp only [eq_comm (a := rd)]
  exact add_ofNat_eq_to32 _ 4

theorem pp_popped (hvalid : s.cfg.Valid) :
    (popped s rd v).pp = to32 ((if rd = s.cfg.regMap.pp then v else s.pp).toNat + 2) := by
  rw [popped, State.pp_advance, pp_setSp (s := s.set rd v) hvalid, State.pp_set]
  simp only [eq_comm (a := rd)]
  exact add_ofNat_eq_to32 _ 2

/-- Settles O34: the registers of `popped` one by one; a pop outside memory is `exec_pop_fault`. -/
theorem popReadsAtSp : Obligations.PopReadsAtSp := by
  intro s rd hvalid
  refine ⟨encodedAs [rd] [] rfl rfl, fun h => ⟨_, exec_pop_popped rd h, rfl, fun _ => rfl, fun hsp hpp => ?_,
    sp_popped hvalid, pp_popped hvalid, fun r hr hsp hpp => ?_⟩, exec_pop_fault⟩
  · rw [get_popped hsp hpp, if_pos rfl]
  · rw [get_popped hsp hpp, if_neg hr]

/-! ### A pop of what a push stored -/

/-- Settles O35: the push keeps MEMSIZE and leaves sp at the word it stored, so the pop reads that word, and its increments
are of exact integers. -/
theorem popAfterPushRestoresSp : Obligations.PopAfterPushRestoresSp := by
  intro s rd rd2 hvalid hrange
  obtain ⟨-, hpush, -⟩ := pushWritesBelowSp s rd hvalid
  obtain ⟨t, hexec, hcfg, hsp, hstored, hpp, -⟩ := hpush hrange
  obtain ⟨-, hpop, -⟩ := popReadsAtSp t rd2 (hcfg ▸ hvalid)
  obtain ⟨u, hexec2, -, -, hget, husp, hupp, -⟩ := hpop (by rwa [hsp, hcfg])
  rw [hcfg, hsp, wordAt_of_storedAt hstored] at hget husp
  rw [hcfg, hsp, wordAt_of_storedAt hstored, hpp] at hupp
  refine ⟨t, u, hexec, hexec2, _, rfl, fun h => ?_, fun h => ?_, fun h => ?_, fun h => ?_, hget⟩
  · rw [husp, if_neg h, to32_toNat_to32_add, Int.sub_add_cancel, to32_toNat]
  · rw [husp, if_pos h, to32_toNat_to32_add]
  · rw [hupp, if_neg h, to32_toNat_to32_add, Int.add_assoc]; rfl
  · rw [hupp, if_pos h, to32_toNat_to32_add]

end Sys2Proof.Machine
end

section
/-! PROOFS. Jumps (`44_jumps.md`): each of the seven is one `jumpIf` whose condition is read off the flags (R150 to R157),
and behind a cmp the flags are the signed order of its operands (R120). -/

namespace Sys2Proof

open Sys2Proof.Claims

/-- Words with the same signed value are the same (`00_scope.md` section 5.1). -/
theorem signed_inj {v w : Word} : signed v = signed w ↔ v = w := by
  rw [signed_eq_toInt, signed_eq_toInt, BitVec.toInt_inj]

end Sys2Proof

namespace Sys2Proof.Machine

open Sys2Proof.Claims

variable {s t : State} {rd ra : RegIdx} {p : Prop} {taken : Bool}

/-! ### The conditions as flags -/

theorem State.condJeq_iff : s.condJeq = true ↔ FlagSet s .equal := flagSet_iff_flag.symm

theorem State.condJnq_iff : s.condJnq = true ↔ ¬ FlagSet s .equal := by
  rw [State.condJnq, Bool.not_eq_true', ← Bool.not_eq_true, flagSet_iff_flag]

theorem State.condJlt_iff : s.condJlt = true ↔ FlagSet s .less := flagSet_iff_flag.symm

theorem State.condJge_iff : s.condJge = true ↔ ¬ FlagSet s .less := by
  rw [State.condJge, Bool.not_eq_true', ← Bool.not_eq_true, flagSet_iff_flag]

theorem State.condJgt_iff : s.condJgt = true ↔ ¬ FlagSet s .less ∧ ¬ FlagSet s .equal := by
  rw [← State.condJge_iff, ← State.condJnq_iff, ← Bool.and_eq_true]; rfl

theorem State.condJle_iff : s.condJle = true ↔ FlagSet s .less ∨ FlagSet s .equal := by
  rw [← State.condJlt_iff, ← State.condJeq_iff, ← Bool.or_eq_true]; rfl

/-! ### The seven jumps -/

/-- The shape of a conditional jump has the effect the rules give it, under any statement of its condition (R157). -/
theorem jumpIf_effect (s : State) (rd : RegIdx) (hcond : taken = true ↔ p) :
    ∃ t, s.jumpIf taken rd = .next t ∧ JumpEffect s t p rd := by
  obtain ⟨t, hnext, hcfg, hmem, hget⟩ := jumpIf_next (s := s) (rd := rd) taken
  have hpp : t.pp = if taken then s.get rd else s.pp + 2 := by rw [State.pp, hcfg, hget, if_pos rfl]
  refine ⟨t, hnext, hcfg, fun _ => by rw [hmem], fun hp => ?_, fun hp => ?_, fun r hr => ?_⟩
  · rw [hpp, if_pos (hcond.mpr hp)]
  · rw [hpp, if_neg (mt hcond.mp hp)]; exact add_ofNat_eq_to32 s.pp 2
  · rw [hget, if_neg hr]

/-- Settles O37: jmp is the jump that is always taken, and through PP it writes back what pp holds. -/
theorem jmpTakesTheTarget : Obligations.JmpTakesTheTarget := fun s rd =>
  ⟨encodedAs [rd] [] rfl rfl, jumpIf_effect s rd (taken := true) (iff_of_true rfl trivial), congrArg _ setPp_pp⟩

/-- Settles O38: jeq is a `jumpIf` on EQUAL. -/
theorem jeqJumpsWhenEqualIsSet : Obligations.JeqJumpsWhenEqualIsSet := fun s rd =>
  ⟨encodedAs [rd] [] rfl rfl, jumpIf_effect s rd State.condJeq_iff⟩

/-- Settles O39: jnq is a `jumpIf` on the negation of EQUAL. -/
theorem jnqJumpsWhenEqualIsClear : Obligations.JnqJumpsWhenEqualIsClear := fun s rd =>
  ⟨encodedAs [rd] [] rfl rfl, jumpIf_effect s rd State.condJnq_iff⟩

/-- Settles O40: jlt is a `jumpIf` on LESS. -/
theorem jltJumpsWhenLessIsSet : Obligations.JltJumpsWhenLessIsSet := fun s rd =>
  ⟨encodedAs [rd] [] rfl rfl, jumpIf_effect s rd State.condJlt_iff⟩

/-- Settles O41: jge is a `jumpIf` on the negation of LESS. -/
theorem jgeJumpsWhenLessIsClear : Obligations.JgeJumpsWhenLessIsClear := fun s rd =>
  ⟨encodedAs [rd] [] rfl rfl, jumpIf_effect s rd State.condJge_iff⟩

/-- Settles O42: jgt is a `jumpIf` on the conditions of jge and jnq together. -/
theorem jgtJumpsWhenBothAreClear : Obligations.JgtJumpsWhenBothAreClear := fun s rd =>
  ⟨encodedAs [rd] [] rfl rfl, jumpIf_effect s rd State.condJgt_iff⟩

/-- Settles O43: jle is a `jumpIf` on the condition of jlt or of jeq. -/
theorem jleJumpsWhenEitherIsSet : Obligations.JleJumpsWhenEitherIsSet := fun s rd =>
  ⟨encodedAs [rd] [] rfl rfl, jumpIf_effect s rd State.condJle_iff⟩

/-! ### The jumps behind a cmp -/

theorem flagSet_equal_of_exec_cmp (hvalid : s.cfg.Valid) (h : exec (.cmp rd ra) s = .next t) :
    FlagSet t .equal ↔ s.get rd = s.get ra := by
  rw [flagSet_iff_flag, exec_cmp_flag_equal hvalid h, cmpEqual_iff]

theorem flagSet_less_of_exec_cmp (hvalid : s.cfg.Valid) (h : exec (.cmp rd ra) s = .next t) :
    FlagSet t .less ↔ signed (s.get rd) < signed (s.get ra) := by
  rw [flagSet_iff_flag, exec_cmp_flag_less hvalid h, cmpLess_iff]

/-- Settles O44: the six comparisons are said in the two flags cmp writes, and each jump is taken on its own. -/
theorem jumpsAfterCmpDecideTheSignedOrder : Obligations.JumpsAfterCmpDecideTheSignedOrder := by
  intro s t rd ra r hvalid h
  have heq := flagSet_equal_of_exec_cmp hvalid h
  have hlt := flagSet_less_of_exec_cmp hvalid h
  have hge : signed (s.get ra) ≤ signed (s.get rd) ↔ ¬ FlagSet t .less := by rw [hlt, not_lt]
  have hle : signed (s.get rd) ≤ signed (s.get ra) ↔ FlagSet t .less ∨ FlagSet t .equal := by
    rw [hlt, heq, ← signed_inj, le_iff_lt_or_eq]
  have hgt : signed (s.get ra) < signed (s.get rd) ↔ ¬ FlagSet t .less ∧ ¬ FlagSet t .equal := by
    rw [← not_or, ← hle, not_le]
  rw [ne_eq, hge, hgt, hle, ← hlt, ← heq]
  exact ⟨(jeqJumpsWhenEqualIsSet t r).2, (jnqJumpsWhenEqualIsClear t r).2, (jltJumpsWhenLessIsSet t r).2,
    (jgeJumpsWhenLessIsClear t r).2, (jgtJumpsWhenBothAreClear t r).2, (jleJumpsWhenEitherIsSet t r).2⟩

end Sys2Proof.Machine
end

section
/-! PROOFS. The interfaces and the step (`50_interfaces_and_step.md`): a step is exec of what its window decodes to (R175) and
is ok or a fault (R174, R197), an image goes to address 0 (R173), and inspection shows every register and byte (R178). -/

namespace Sys2Proof.Machine

variable {s t : State} {f : Fault} {img : List Byte} {m : RegMap}

/-! ### The step -/

/-- Settles O7: it is the law of a fetch whose window is in memory and decodes. -/
theorem stepRunsTheDecodedInstruction : Obligations.StepRunsTheDecodedInstruction := fun _ _ => step_of_decodeBytes

/-- Every instruction has its meaning: it completes or raises a fault of R190, and exec refuses none. -/
theorem exec_next_or_fault (i : Instr) (s : State) : (∃ t, exec i s = .next t) ∨ ∃ f, exec i s = .fault f := by
  cases i with
  | add | and | or | sub | mul | not | mv | shl | shr | shra | li | cmp | jmp => exact .inl ⟨_, rfl⟩
  | jeq | jnq | jlt | jge | jgt | jle =>
    obtain ⟨t, hnext, -⟩ := jumpIf_next _
    exact .inl ⟨t, hnext⟩
  | div rd ra rb =>
    obtain hlast | hrd := le_or_gt 17 rd.val
    · exact .inr ⟨_, exec_div_last hlast⟩
    by_cases hzero : s.get rb = 0
    · exact .inr ⟨_, exec_div_zero hrd hzero⟩
    · exact .inl ⟨_, exec_div_signed (rd1 := ⟨rd.val + 1, by omega⟩) rfl hzero⟩
  | load rd ra =>
    refine (le_or_gt ((s.get ra).toNat + 3) s.cfg.memSize).imp (fun hin => ?_) fun hout => ⟨_, exec_load_fault hout⟩
    obtain ⟨w, -, hexec⟩ := exec_load_ok hin
    exact ⟨_, hexec⟩
  | store rd ra =>
    refine (le_or_gt ((s.get rd).toNat + 3) s.cfg.memSize).imp (fun hin => ?_) fun hout => ⟨_, exec_store_fault hout⟩
    obtain ⟨u, -, hexec⟩ := exec_store_ok hin
    exact ⟨_, hexec⟩
  | push rd =>
    exact (le_or_gt ((s.sp - 4).toNat + 3) s.cfg.memSize).imp (fun hin => ⟨_, exec_push_ok hin⟩)
      fun hout => ⟨_, exec_push_fault hout⟩
  | pop rd =>
    refine (le_or_gt (s.sp.toNat + 3) s.cfg.memSize).imp (fun hin => ?_) fun hout => ⟨_, exec_pop_fault hout⟩
    obtain ⟨w, -, hexec⟩ := exec_pop_ok hin
    exact ⟨_, hexec⟩

/-- A step ends with the fault of its fetch, or as the instruction fetched does (R174). -/
theorem step_next_or_fault (s : State) : (∃ t, step s = .next t) ∨ ∃ f, step s = .fault f := by
  unfold step
  split
  · exact .inr ⟨_, rfl⟩
  · exact exec_next_or_fault _ s

theorem nextInstruction_of_next (h : step s = .next t) : s.nextInstruction = (t, .ok) := by
  rw [State.nextInstruction, h]

/-- The state reported with a fault is the one before the step (R197). -/
theorem nextInstruction_of_fault (h : step s = .fault f) : s.nextInstruction = (s, .fault f) := by
  rw [State.nextInstruction, h]

/-- Settles O8: no instruction is refused, so a step answers a state or a fault, and the report follows from the answer. -/
theorem stepIsOkOrAFaultThatChangesNothing : Obligations.StepIsOkOrAFaultThatChangesNothing := fun s =>
  (step_next_or_fault s).imp (fun ⟨t, h⟩ => ⟨t, h, nextInstruction_of_next h⟩)
    fun ⟨f, h⟩ => ⟨f, h, nextInstruction_of_fault h⟩

/-! ### Image load -/

/-- An image that fits is written from address 0 up; parameters and registers stay (R173). -/
theorem loadImage_of_le (h : img.length ≤ s.cfg.memSize) :
    s.loadImage img = .ok (s.setMem (Memory.writeBytes s.mem 0 img)) := by
  have hrange : s.inRange 0 img.length := by rwa [State.inRange, Nat.zero_add]
  rw [State.loadImage, State.memWrite, if_pos hrange]

theorem loadImage_of_lt (h : s.cfg.memSize < img.length) : s.loadImage img = .error .imageTooLong := by
  have hrange : ¬ s.inRange 0 img.length := by rwa [State.inRange, Nat.zero_add, not_le]
  rw [State.loadImage, State.memWrite, if_neg hrange]

theorem read_writeBytes_zero_of_lt (mem : Memory) (img : List Byte) {k : Nat} (h : k < img.length) :
    Memory.read (Memory.writeBytes mem 0 img) k = img[k] := by
  rw [Memory.read_writeBytes, if_pos (by omega), Nat.sub_zero, List.getD_eq_getElem img 0 h]

theorem read_writeBytes_zero_of_le (mem : Memory) (img : List Byte) {a : Nat} (h : img.length ≤ a) :
    Memory.read (Memory.writeBytes mem 0 img) a = Memory.read mem a := by
  rw [Memory.read_writeBytes, if_neg (by omega)]

/-- Settles O52: a loaded image is a change of memory alone, read byte by byte; a longer one is `loadImage_of_lt`. -/
theorem imageLoadWritesTheImageAtZero : Obligations.ImageLoadWritesTheImageAtZero := fun s img =>
  ⟨fun h => ⟨_, loadImage_of_le h, rfl, fun _ => rfl, fun _ => read_writeBytes_zero_of_lt s.mem img,
    fun _ => read_writeBytes_zero_of_le s.mem img⟩, loadImage_of_lt⟩

/-! ### Inspection -/

theorem length_registerList (s : State) : s.registerList.length = 18 := by
  rw [State.registerList, List.length_map, List.length_finRange]

theorem getElem?_registerList (s : State) (r : RegIdx) :
    s.registerList[r.val]? = some (regName s.cfg.regMap r, s.get r) := by
  simp [State.registerList]

theorem getElem?_memoryContents (s : State) {a : Nat} (h : a < s.cfg.memSize) :
    s.memoryContents[a]? = some (Memory.read s.mem a) := by
  rw [State.memoryContents, List.getElem?_eq_getElem (by simpa using h), Memory.getElem_readBytes _ _ _ _ h, Nat.zero_add]

theorem regName_pp (m : RegMap) : regName m m.pp = "pp" := if_pos rfl

theorem regName_sp (h : m.pp ≠ m.sp) : regName m m.sp = "sp" := by
  rw [regName, if_neg h.symm, if_pos rfl]

theorem regName_fl (hpp : m.pp ≠ m.fl) (hsp : m.sp ≠ m.fl) : regName m m.fl = "fl" := by
  rw [regName, if_neg hpp.symm, if_neg hsp.symm, if_pos rfl]

/-- The names of the general registers in index order are REG_MAP's: there are 15 of each, and the register at a place has the
name at that place, since no register stands at two (R7, R11). -/
theorem map_regName_generalRegs (h : [m.pp, m.sp, m.fl].Nodup) :
    (generalRegs m).map (regName m) = m.gprNames.toList := by
  have hlen : (generalRegs m).length = m.gprNames.toList.length := by rw [length_generalRegs h, Vector.length_toList]
  refine List.ext_getElem (by rwa [List.length_map]) fun k hk hk' => ?_
  rw [List.getElem_map, regName_of_mem (List.getElem_mem _), nodup_generalRegs.idxOf_getElem, List.getD_eq_getElem _ _ hk']

/-- Settles O54: lengths and entries of the two lists, and the names under valid parameters, where PP, SP and FL are three
registers. -/
theorem inspectionShowsAllRegistersAndMemory : Obligations.InspectionShowsAllRegistersAndMemory := by
  refine ⟨by decide, fun s => ⟨length_registerList s, getElem?_registerList s, Memory.length_readBytes _ _ _,
    fun _ => getElem?_memoryContents s, fun hvalid => ?_⟩⟩
  exact ⟨regName_pp _, regName_sp hvalid.pp_ne_sp, regName_fl hvalid.pp_ne_fl hvalid.sp_ne_fl,
    map_regName_generalRegs hvalid.2.2.1⟩

end Sys2Proof.Machine
end

section
/-! PROOFS. Exceptions (`60_exceptions.md`): what a fetch can answer and why (R71, R78, R79), when an instruction fetched
faults (R191, R193), and from these the cause of each of the four faults of a step and their priority (R190 to R199). -/

namespace Sys2Proof

open Sys2Proof.Claims

variable {o : OpcodeMap} {m : Mnemonic} {i : Instr} {w : Window} {e : DecodeError}

/-! ### The rejections of the decoder -/

/-- The index bytes of an accepted window are the indices its instruction uses (R73, R78). -/
theorem usedIndices_of_decodeAs (h : decodeAs m w = .ok i) :
    usedIndices m w.b1.toNat w.b2.toNat w.b3.toNat = i.indices := by
  cases m with
  | jeq | jge | jgt | jle | jlt | jmp | jnq | pop | push =>
    obtain ⟨rd, hrd, rfl⟩ := decodeF2_ok h; rw [hrd]; rfl
  | cmp | load | mv | not | store =>
    obtain ⟨rd, ra, hrd, hra, rfl⟩ := decodeF3_ok h; rw [hrd, hra]; rfl
  | add | and | mul | or | sub =>
    obtain ⟨rd, ra, rb, hrd, hra, hrb, rfl⟩ := decodeF4R_ok h; rw [hrd, hra, hrb]; rfl
  | div =>
    obtain ⟨rd, ra, rb, -, hrd, hra, hrb, rfl⟩ := decodeDiv_ok h; rw [hrd, hra, hrb]; rfl
  | shl | shr | shra =>
    obtain ⟨rd, ra, hrd, hra, rfl⟩ := decodeF4S_ok h; rw [hrd, hra]; rfl
  | li =>
    obtain ⟨rd, hrd, rfl⟩ := decodeF6I_ok h; rw [hrd]; rfl

/-- A selected mnemonic rejects a window only for an index it uses (R78). -/
theorem decodeAs_error (h : decodeAs m w = .error e) :
    ∃ k ∈ usedIndices m w.b1.toNat w.b2.toNat w.b3.toNat, e = .invalidRegister k ∧ 18 ≤ k := by
  cases m with
  | jeq | jge | jgt | jle | jlt | jmp | jnq | pop | push => exact decodeF2_error h
  | cmp | load | mv | not | store => exact decodeF3_error h
  | add | and | mul | or | sub => exact decodeF4R_error h
  | div => exact decodeDiv_error h
  | shl | shr | shra => exact decodeF4S_error h
  | li => exact decodeF6I_error h

/-- A window is rejected for its opcode (R79), or else for an index used by a mnemonic its opcode is the code of (R78). -/
theorem decode_error (h : decode o w = .error e) :
    (e = .illegalOpcode w.b0 ∧ ∀ m, o.code m ≠ w.b0) ∨
    ∃ m, o.code m = w.b0 ∧ ∃ k ∈ usedIndices m w.b1.toNat w.b2.toNat w.b3.toNat, e = .invalidRegister k ∧ 18 ≤ k := by
  unfold decode at h
  split at h
  · next hnone => cases h; exact .inl ⟨rfl, selectMnemonic_eq_none.mp hnone⟩
  · next m hm => exact .inr ⟨m, code_of_selectMnemonic hm, decodeAs_error h⟩

/-! ### The reference OPCODE_MAP -/

theorem toNat_code_reference (m : Mnemonic) : (OpcodeMap.reference.code m).toNat = m.index.val := by
  cases m <;> rfl

theorem Mnemonic.exists_index_eq (k : Fin 24) : ∃ m : Mnemonic, m.index = k :=
  ⟨Mnemonic.all[k], by decide +revert⟩

/-- The reference codes are the 24 bytes below 0x18 (R6). -/
theorem exists_code_reference_iff {b : Byte} : (∃ m, OpcodeMap.reference.code m = b) ↔ b.toNat < 0x18 := by
  simp only [← BitVec.toNat_inj, toNat_code_reference]
  refine ⟨fun ⟨m, hm⟩ => hm ▸ m.index.isLt, fun hb => ?_⟩
  obtain ⟨m, hm⟩ := Mnemonic.exists_index_eq ⟨b.toNat, hb⟩
  exact ⟨m, congrArg Fin.val hm⟩

end Sys2Proof

namespace Sys2Proof.Machine

open Sys2Proof.Claims

variable {s : State} {i : Instr} {m : Mnemonic} {f : Fault} {a : Nat}

/-! ### The fetch -/

/-- The indices the bytes at pp give to a mnemonic. -/
abbrev fetchedIndices (s : State) (m : Mnemonic) : List Nat :=
  usedIndices m (windowByte s 1) (windowByte s 2) (windowByte s 3)

/-- The answers of a fetch, each with its cause, in the order of the phases (R175, R196). -/
inductive FetchAnswer (s : State) : Except Fault Instr → Prop
  | pastEnd : s.cfg.memSize < s.pp.toNat + 6 → FetchAnswer s (.error .memoryFault)
  | unmapped : s.pp.toNat + 6 ≤ s.cfg.memSize → (∀ m, (s.cfg.opcodeMap.code m).toNat ≠ windowByte s 0) →
      FetchAnswer s (.error .illegalInstruction)
  | badIndex {m : Mnemonic} {k : Nat} : s.pp.toNat + 6 ≤ s.cfg.memSize →
      (s.cfg.opcodeMap.code m).toNat = windowByte s 0 → k ∈ fetchedIndices s m → 18 ≤ k →
      FetchAnswer s (.error .invalidRegister)
  | accepted {i : Instr} : s.pp.toNat + 6 ≤ s.cfg.memSize →
      (s.cfg.opcodeMap.code i.mnemonic).toNat = windowByte s 0 → (∀ k ∈ fetchedIndices s i.mnemonic, k < 18) →
      i.wellFormed = true → FetchAnswer s (.ok i)

theorem fetchInstr_answer (s : State) : FetchAnswer s s.fetchInstr := by
  obtain hout | hin := lt_or_ge s.cfg.memSize (s.pp.toNat + 6)
  · rw [fetchInstr_outOfRange hout]
    exact .pastEnd hout
  rw [fetchInstr_inRange hin, decodeBytes_readBytes]
  split
  · next e hdecode =>
    obtain ⟨rfl, hnone⟩ | ⟨m, hcode, k, hk, rfl, hge⟩ := decode_error hdecode
    · exact .unmapped hin fun m hcode => hnone m (BitVec.eq_of_toNat_eq hcode)
    · exact .badIndex hin (congrArg BitVec.toNat hcode) hk hge
  · next i hdecode =>
    obtain ⟨m, hcode, hm⟩ := decode_ok hdecode
    obtain ⟨rfl, hwf, -⟩ := decodeAs_ok hm
    have hindices : fetchedIndices s i.mnemonic = i.indices := usedIndices_of_decodeAs hm
    refine .accepted hin (congrArg BitVec.toNat hcode) (fun k hk => ?_) hwf
    exact of_decide_eq_true (List.all_eq_true.mp hwf k (hindices ▸ hk))

theorem wellFormed_of_fetchInstr (h : s.fetchInstr = .ok i) : i.wellFormed = true := by
  cases h ▸ fetchInstr_answer s
  assumption

theorem fetchInstr_of_unmapped (hin : s.pp.toNat + 6 ≤ s.cfg.memSize)
    (hnone : ∀ m, (s.cfg.opcodeMap.code m).toNat ≠ windowByte s 0) : s.fetchInstr = .error .illegalInstruction :=
  match s.fetchInstr, fetchInstr_answer s with
  | _, .pastEnd hout => absurd hout (by omega)
  | _, .unmapped _ _ => rfl
  | _, .badIndex _ hcode _ _ | _, .accepted _ hcode _ _ => absurd hcode (hnone _)

/-- Under an injective OPCODE_MAP the mnemonic that the first byte is the code of is the one selected. -/
theorem eq_of_code_eq_windowByte (hvalid : s.cfg.Valid) {m n : Mnemonic}
    (hm : (s.cfg.opcodeMap.code m).toNat = windowByte s 0) (hn : (s.cfg.opcodeMap.code n).toNat = windowByte s 0) :
    m = n :=
  hvalid.code_inj (BitVec.eq_of_toNat_eq (hm.trans hn.symm))

section Selected

variable (hvalid : s.cfg.Valid) (hin : s.pp.toNat + 6 ≤ s.cfg.memSize)
  (hcode : (s.cfg.opcodeMap.code m).toNat = windowByte s 0)
include hvalid hin hcode

theorem fetchInstr_of_badIndex (hbad : ∃ k ∈ fetchedIndices s m, 18 ≤ k) : s.fetchInstr = .error .invalidRegister :=
  match s.fetchInstr, fetchInstr_answer s with
  | _, .pastEnd hout => absurd hout (by omega)
  | _, .unmapped _ hnone => absurd hcode (hnone m)
  | _, .badIndex _ _ _ _ => rfl
  | _, .accepted _ hcode' hlt _ => by
    obtain ⟨k, hk, hge⟩ := hbad
    rw [eq_of_code_eq_windowByte hvalid hcode hcode'] at hk
    exact absurd (hlt k hk) (by omega)

theorem fetchInstr_of_indices_lt (hlt : ∀ k ∈ fetchedIndices s m, k < 18) :
    ∃ i, i.mnemonic = m ∧ s.fetchInstr = .ok i :=
  match s.fetchInstr, fetchInstr_answer s with
  | _, .pastEnd hout => absurd hout (by omega)
  | _, .unmapped _ hnone => absurd hcode (hnone m)
  | _, .badIndex _ hcode' hk hge => by
    rw [← eq_of_code_eq_windowByte hvalid hcode hcode'] at hk
    exact absurd (hlt _ hk) (by omega)
  | _, .accepted _ hcode' _ _ => ⟨_, eq_of_code_eq_windowByte hvalid hcode' hcode, rfl⟩

end Selected

/-! ### The instruction fetched -/

/-- R191 (b) to (e): a data access past the end is a MemoryFault. -/
theorem exec_of_dataAddress_pastEnd (ha : dataAddress s i = some a) (hout : s.cfg.memSize < a + 3) :
    exec i s = .fault .memoryFault := by
  cases i with
  | load => cases ha; exact exec_load_fault hout
  | store => cases ha; exact exec_store_fault hout
  | push => cases ha; exact exec_push_fault (to32_toNat_sub_four s.sp ▸ hout)
  | pop => cases ha; exact exec_pop_fault hout
  | _ => cases ha

/-- A well-formed instruction completes when its data access, if any, is in memory and its divisor, if any, is not 0. -/
theorem exec_completes (hwf : i.wellFormed = true) (hdata : ∀ a, dataAddress s i = some a → a + 3 ≤ s.cfg.memSize)
    (hdivisor : ∀ rd ra rb, i = .div rd ra rb → s.get rb ≠ 0) : ∃ t, exec i s = .next t := by
  cases i with
  | add | and | or | sub | mul | not | mv | shl | shr | shra | li | cmp | jmp => exact ⟨_, rfl⟩
  | jeq | jnq | jlt | jge | jgt | jle =>
    obtain ⟨t, hnext, -⟩ := jumpIf_next _
    exact ⟨t, hnext⟩
  | div rd ra rb =>
    have hlast := Instr.wellFormed_iff.mp hwf rd ra rb rfl
    exact ⟨_, exec_div_signed (rd1 := ⟨rd.val + 1, hlast⟩) rfl (hdivisor rd ra rb rfl)⟩
  | load =>
    obtain ⟨w, -, hexec⟩ := exec_load_ok (hdata _ rfl)
    exact ⟨_, hexec⟩
  | store =>
    obtain ⟨u, -, hexec⟩ := exec_store_ok (hdata _ rfl)
    exact ⟨_, hexec⟩
  | push => exact ⟨_, exec_push_ok (to32_toNat_sub_four s.sp ▸ hdata _ rfl)⟩
  | pop =>
    obtain ⟨w, -, hexec⟩ := exec_pop_ok (hdata _ rfl)
    exact ⟨_, hexec⟩

/-- Past the checks there are two faults left, each with one cause (R191, R193). -/
theorem exec_fault (hwf : i.wellFormed = true) (h : exec i s = .fault f) :
    (f = .memoryFault ∧ ∃ a, dataAddress s i = some a ∧ s.cfg.memSize < a + 3) ∨
    (f = .arithmeticFault ∧ ∃ rd ra rb, i = .div rd ra rb ∧ s.get rb = 0) := by
  by_cases hdata : ∃ a, dataAddress s i = some a ∧ s.cfg.memSize < a + 3
  · obtain ⟨a, ha, hout⟩ := hdata
    cases (exec_of_dataAddress_pastEnd ha hout).symm.trans h
    exact .inl ⟨rfl, a, ha, hout⟩
  by_cases hdivisor : ∃ rd ra rb, i = .div rd ra rb ∧ s.get rb = 0
  · obtain ⟨rd, ra, rb, rfl, hzero⟩ := hdivisor
    have hlast := Instr.wellFormed_iff.mp hwf rd ra rb rfl
    cases (exec_div_zero (by omega) hzero).symm.trans h
    exact .inr ⟨rfl, rd, ra, rb, rfl, hzero⟩
  · push Not at hdata hdivisor
    obtain ⟨t, hnext⟩ := exec_completes hwf hdata hdivisor
    cases hnext.symm.trans h

/-- R48: the four instructions that access memory. -/
theorem mnemonic_of_dataAddress (h : dataAddress s i = some a) : i.mnemonic ∈ [.load, .store, .push, .pop] := by
  cases i with
  | load | store | push | pop => simp [Instr.mnemonic]
  | _ => cases h

/-! ### The faults of a step -/

theorem step_of_fetchInstr_error (h : s.fetchInstr = .error f) : step s = .fault f := by
  rw [step, h]

theorem step_of_fetchInstr_ok (h : s.fetchInstr = .ok i) : step s = exec i s := by
  rw [step, h]

/-- The fault of a step is that of its fetch, or else that of the well-formed instruction fetched (R175). -/
theorem step_fault (h : step s = .fault f) : s.fetchInstr = .error f ∨
    ∃ i, s.fetchInstr = .ok i ∧ i.wellFormed = true ∧ exec i s = .fault f := by
  cases hfetch : s.fetchInstr with
  | error g =>
    cases (step_of_fetchInstr_error hfetch).symm.trans h
    exact .inl rfl
  | ok i => exact .inr ⟨i, rfl, wellFormed_of_fetchInstr hfetch, step_of_fetchInstr_ok hfetch ▸ h⟩

/-- Settles O10: one law of the fetch for each phase, and past them the faults of the instruction fetched. -/
theorem theFirstFaultInPhaseOrderIsReported : Obligations.TheFirstFaultInPhaseOrderIsReported := by
  intro s hvalid
  refine ⟨fun hout => step_of_fetchInstr_error (fetchInstr_outOfRange hout), fun hin =>
    ⟨fun hnone => step_of_fetchInstr_error (fetchInstr_of_unmapped hin hnone), fun m hcode =>
      ⟨fun hbad => step_of_fetchInstr_error (fetchInstr_of_badIndex hvalid hin hcode hbad), fun hlt => ?_⟩⟩⟩
  obtain ⟨i, rfl, hfetch⟩ := fetchInstr_of_indices_lt hvalid hin hcode hlt
  refine ⟨i, rfl, step_of_fetchInstr_ok hfetch, fun f hfault => ?_⟩
  obtain ⟨rfl, a, ha, -⟩ | ⟨rfl, rd, ra, rb, rfl, -⟩ := exec_fault (wellFormed_of_fetchInstr hfetch) hfault
  · exact .inr ⟨rfl, mnemonic_of_dataAddress ha⟩
  · exact .inl ⟨rfl, rfl⟩

/-- Settles O11: a fetch answers MemoryFault only for its window, an instruction only for its data address. -/
theorem memoryFaultExactlyPastTheEnd : Obligations.MemoryFaultExactlyPastTheEnd := by
  refine fun s => ⟨fun h => ?_, ?_⟩
  · obtain hfetch | ⟨i, hfetch, hwf, hexec⟩ := step_fault h
    · cases hfetch ▸ fetchInstr_answer s with
      | pastEnd hout => exact .inl hout
    · obtain ⟨-, a, hdata⟩ | ⟨hf, -⟩ := exec_fault hwf hexec
      · exact .inr ⟨i, a, hfetch, hdata⟩
      · cases hf
  · rintro (hout | ⟨i, a, hfetch, ha, hout⟩)
    · exact step_of_fetchInstr_error (fetchInstr_outOfRange hout)
    · rw [step_of_fetchInstr_ok hfetch, exec_of_dataAddress_pastEnd ha hout]

/-- Settles O12: a fetch answers InvalidRegister only for a used index, and a well-formed instruction never does. -/
theorem invalidRegisterExactlyForUsedIndices : Obligations.InvalidRegisterExactlyForUsedIndices := by
  refine fun s hvalid => ⟨fun h => ?_, fun ⟨hin, m, hcode, hbad⟩ => ?_⟩
  · obtain hfetch | ⟨i, -, hwf, hexec⟩ := step_fault h
    · cases hfetch ▸ fetchInstr_answer s with
      | badIndex hin hcode hk hge => exact ⟨hin, _, hcode, _, hk, hge⟩
    · obtain ⟨hf, -⟩ | ⟨hf, -⟩ := exec_fault hwf hexec <;> cases hf
  · exact step_of_fetchInstr_error (fetchInstr_of_badIndex hvalid hin hcode hbad)

/-- Settles O13: no fetch answers ArithmeticFault, and the div fetched is well-formed, so its divisor is looked at. -/
theorem arithmeticFaultExactlyForAZeroDivisor : Obligations.ArithmeticFaultExactlyForAZeroDivisor := by
  refine fun s => ⟨fun h => ?_, fun ⟨rd, ra, rb, hfetch, hzero⟩ => ?_⟩
  · obtain hfetch | ⟨i, hfetch, hwf, hexec⟩ := step_fault h
    · cases hfetch ▸ fetchInstr_answer s
    · obtain ⟨hf, -⟩ | ⟨-, rd, ra, rb, rfl, hzero⟩ := exec_fault hwf hexec
      · cases hf
      · exact ⟨rd, ra, rb, hfetch, hzero⟩
  · have hlast := Instr.wellFormed_iff.mp (wellFormed_of_fetchInstr hfetch) rd ra rb rfl
    rw [step_of_fetchInstr_ok hfetch, exec_div_zero (by omega) hzero]

/-- Settles O14: a fetch answers IllegalInstruction only for its first byte, and a well-formed instruction never does; the
reference codes are the bytes below 0x18. -/
theorem illegalInstructionExactlyForUnmappedOpcodes : Obligations.IllegalInstructionExactlyForUnmappedOpcodes := by
  refine ⟨fun s => ⟨fun h => ?_, fun ⟨hin, hnone⟩ => ?_⟩, fun b => ?_⟩
  · obtain hfetch | ⟨i, -, hwf, hexec⟩ := step_fault h
    · cases hfetch ▸ fetchInstr_answer s with
      | unmapped hin hnone => exact ⟨hin, hnone⟩
    · obtain ⟨hf, -⟩ | ⟨hf, -⟩ := exec_fault hwf hexec <;> cases hf
  · exact step_of_fetchInstr_error (fetchInstr_of_unmapped hin hnone)
  · rw [← not_exists, exists_code_reference_iff, not_lt]

/-! ### After a fault -/

/-- A report that the next step would make again is not changed by any number of further steps. -/
theorem stepOn_fixed {p : State × Report} (h : p.1.nextInstruction = p) : ∀ k, State.stepOn k p = p
  | 0 => rfl
  | k + 1 => by rw [State.stepOn, h, stepOn_fixed h k]

/-- Settles O9: a faulting step reports the state before it, from which the next step is the same one. -/
theorem aFaultRepeatsForever : Obligations.AFaultRepeatsForever := by
  intro s f hfault k
  have hnext := nextInstruction_of_fault hfault
  refine ⟨?_, ?_⟩
  · rw [hnext, stepOn_fixed hnext]
  · rw [State.drive, hnext]; rfl

end Sys2Proof.Machine
end

section
/-! PROOFS. Reset, boot and hazards (`70_reset_and_hazards.md`): the registers after reset (R221) and after the image load
(R222), and the store that the quirk fetches again, since a fetch depends on the parameters, pp and its window alone (R226). -/

namespace Sys2Proof.Machine

open Sys2Proof.Claims

variable {c : Config} {s t : State} {m m' : Memory} {a b n : Nat} {v : Word}

/-! ### The state after reset -/

theorem get_resetWith (c : Config) (r : RegIdx) :
    (State.resetWith c).get r = if r = c.regMap.sp then BitVec.ofNat 32 (c.memSize - 4) else 0 := by
  simp only [State.get, State.resetWith, Fin.getElem_fin, Vector.getElem_set, Vector.getElem_replicate, Fin.ext_iff,
    eq_comm]

theorem get_resetWith_of_ne_sp {r : RegIdx} (h : r ≠ c.regMap.sp) : (State.resetWith c).get r = 0 := by
  rw [get_resetWith, if_neg h]

theorem pp_resetWith (hvalid : c.Valid) : (State.resetWith c).pp = 0 := get_resetWith_of_ne_sp hvalid.pp_ne_sp

theorem fl_resetWith (hvalid : c.Valid) : (State.resetWith c).fl = 0 := get_resetWith_of_ne_sp hvalid.sp_ne_fl.symm

/-- MEMSIZE is at most 2^32, so MEMSIZE - 4 is a word. -/
theorem toNat_sp_resetWith (hvalid : c.Valid) : (State.resetWith c).sp.toNat = c.memSize - 4 := by
  obtain ⟨⟨hmin, hmax⟩, -⟩ := hvalid
  have hsp : (State.resetWith c).sp = BitVec.ofNat 32 (c.memSize - 4) := (get_resetWith c _).trans (if_pos rfl)
  rw [hsp, BitVec.toNat_ofNat, Nat.mod_eq_of_lt (by omega)]

/-- Settles O50: valid parameters are constructed, and what is constructed is the reset state. -/
theorem resetStateIsComplete : Obligations.ResetStateIsComplete := fun _ hvalid =>
  ⟨_, construct_of_valid hvalid, rfl, fun _ => get_resetWith_of_ne_sp, toNat_sp_resetWith hvalid, Memory.read_nil,
    pp_resetWith hvalid, fl_resetWith hvalid⟩

/-- Settles O53: a loaded image is a change of memory alone, so the registers are those of the reset state. -/
theorem firstStepStartsAtZero : Obligations.FirstStepStartsAtZero := fun _ _ hvalid hfits =>
  ⟨_, _, construct_of_valid hvalid, loadImage_of_le hfits, pp_resetWith hvalid, toNat_sp_resetWith hvalid,
    fl_resetWith hvalid, fun _ => rfl⟩

/-! ### The store fetched again -/

theorem Memory.readBytes_congr (h : ∀ k < n, Memory.read m (a + k) = Memory.read m' (a + k)) :
    Memory.readBytes m a n = Memory.readBytes m' a n := by
  refine List.ext_getElem (by simp only [Memory.length_readBytes]) fun k hk _ => ?_
  rw [Memory.length_readBytes] at hk
  rw [Memory.getElem_readBytes m n a k hk, Memory.getElem_readBytes m' n a k hk, h k hk]

/-- A store changes nothing that is read outside its three bytes. -/
theorem readBytes_of_storedAt (h : StoredAt s t a v) (hdisjoint : a + 3 ≤ b ∨ b + n ≤ a) :
    Memory.readBytes t.mem b n = Memory.readBytes s.mem b n := by
  obtain ⟨-, -, -, hkept⟩ := h
  exact Memory.readBytes_congr fun k hk => hkept (b + k) (by omega)

/-- A fetch looks at the parameters, at pp and at the six bytes of its window, and at nothing else of the state (R70). -/
theorem fetchInstr_congr (hcfg : t.cfg = s.cfg) (hpp : t.pp = s.pp)
    (hwindow : Memory.readBytes t.mem s.pp.toNat 6 = Memory.readBytes s.mem s.pp.toNat 6) :
    t.fetchInstr = s.fetchInstr := by
  obtain hout | hin := lt_or_ge s.cfg.memSize (s.pp.toNat + 6)
  · rw [fetchInstr_outOfRange hout, fetchInstr_outOfRange (by rwa [hcfg, hpp])]
  · rw [fetchInstr_inRange hin, fetchInstr_inRange (by rwa [hcfg, hpp]), hcfg, hpp, hwindow]

/-- Settles O32: with the quirk the store changes sp and three bytes outside the window, so the next fetch answers the same. -/
theorem storeWithTheQuirkIsFetchedAgain : Obligations.StoreWithTheQuirkIsFetchedAgain := by
  intro s rd ra hvalid hquirk hfetch hrange hdisjoint
  obtain ⟨-, hstore, -⟩ := storeWritesTheWordAtRd s rd ra
  obtain ⟨t, hexec, hcfg, hstored, -, hregs⟩ := hstore hrange
  obtain ⟨hsp, hget⟩ := hregs hquirk
  have hpp : t.pp = s.pp := by
    rw [State.pp, hcfg, hget _ hvalid.pp_ne_sp, State.pp]
  have hsame : t.fetchInstr = s.fetchInstr := fetchInstr_congr hcfg hpp (readBytes_of_storedAt hstored hdisjoint)
  exact ⟨t, by rw [step_of_fetchInstr_ok hfetch, hexec], hpp, hsp, by rw [hsame, hfetch]⟩

end Sys2Proof.Machine
end
